-- ==== Sys2Proof/Word.lean ====
section
/-! DEFINITION. Words, bytes and byte sequences (spec/00_scope.md rules R8 and R10). -/

namespace Sys2Proof

/-- A byte: an integer in [0, 256) (rule R10). -/
abbrev Byte := BitVec 8

/-- A word: an unsigned 32-bit integer, bit 0 the least significant (rule R8). -/
abbrev Word := BitVec 32

/-- A byte sequence: a finite list of bytes, index 0 first (rule R10). -/
abbrev Bytes := List Byte

end Sys2Proof
end

