-- ==== Sys2Proof/Config.lean ====
section
/-! DEFINITION. The parameters of the engine (spec/00_scope.md rules R6 and R7): configuration, not
state. A machine carries one `Params`, which no step changes, so that every statement about all
states is a statement about all parameters (notes/assumptions/1.md). The default tables of `IV` and
`KTAB` stand in Machine/Constants.lean. -/

namespace Sys2Proof

/-- `HOST_BUS_ORDER`: how the platform's bus orders the bytes of a word (rule R56). -/
inductive ByteOrder where
  | bigEndian
  | littleEndian
deriving DecidableEq, Repr

/-- The named parameters of rule R6 that have no fixed value. -/
structure Params where
  /-- `MEM_SIZE`, the number of bytes of MEM (rules R6, R50). -/
  memSize : Nat
  /-- `IV[0..8)`, the initial chaining value (rules R7, R102). -/
  iv : Vector Word 8
  /-- `KTAB[0..64)`, the round constants (rules R7, R103). -/
  ktab : Vector Word 64
  /-- `REG_BASE`, the host address of the register window: no rule depends on it (rule R63). -/
  regBase : Nat
  /-- `HOST_BUS_ORDER`: no rule depends on it (rule R56). -/
  hostBusOrder : ByteOrder
deriving DecidableEq, Repr

end Sys2Proof
end

