-- ==== Sys2Proof/Syntax.lean ====
section
/-! DEFINITION. The commands of the engine (spec/30_encoding.md rule R73), the host's steps
(spec/10_state.md rule R20) and the host-program notation (spec/30_encoding.md rules R80, R81). -/

namespace Sys2Proof

/-- The nine commands of rule R73, one for each row of spec/opcode_table.json. A command word carries
no operands (rule R70): a command reads them from the argument registers (rule R75). -/
inductive Instr where
  /-- DINIT, 41_digest.md rule R142. -/
  | dinit
  /-- DUPDATE, 41_digest.md rule R143. -/
  | dupdate
  /-- DFINAL, 41_digest.md rule R144. -/
  | dfinal
  /-- DIGEST, 41_digest.md rule R145. -/
  | digest
  /-- MINIT, 42_mac.md rule R163. -/
  | minit
  /-- MUPDATE, 42_mac.md rule R164. -/
  | mupdate
  /-- MFINAL, 42_mac.md rule R165. -/
  | mfinal
  /-- MAC, 42_mac.md rule R166. -/
  | mac
  /-- KDF, 43_kdf.md rule R192. -/
  | kdf
deriving DecidableEq, Repr

/-- One step of the host (rules R20, R65), or the platform's reset event, which falls between host
steps (70_reset_and_hazards.md rule R250). A register access carries its byte offset in the window
and its width in bits, so that the accesses that are not part of the interface can be written down
and refused (44_host_access.md rule R200). -/
inductive HostStep where
  /-- Read a register: `RDREG(off)` (rule R200). -/
  | readReg (off width : Nat)
  /-- Write a register: `WRREG(off, v)` (rule R201). -/
  | writeReg (off width : Nat) (v : Word)
  /-- Read one byte of MEM (rule R204). -/
  | readMem (addr : Nat)
  /-- Write one byte of MEM (rule R204). -/
  | writeMem (addr : Nat) (b : Byte)
  /-- The external reset event (rule R250). -/
  | reset
deriving DecidableEq, Repr

/-- What a host read returns: a register read's value (44_host_access.md rule R200) or the byte of a MEM read
(rule R204). The observation of a run takes the register reads alone (rule R205). -/
inductive Reply where
  /-- The value of a register read at an offset. -/
  | reg (off : Nat) (v : Word)
  /-- The byte of a MEM read at an address. DESIGN CHOICE: the model keeps it, and it is no
  part of the observation (notes/assumptions/10.md). -/
  | mem (addr : Nat) (b : Byte)
deriving DecidableEq, Repr

/-- A statement of a host program (rules R80 and R81): the four accesses, the bare command write, and
the operand form of each command mnemonic. -/
inductive HostStmt where
  | wr (off : Nat) (v : Word)
  | rd (off : Nat)
  | memw (addr : Nat) (bs : Bytes)
  | memr (addr n : Nat)
  | cmd (w : Word)
  | dinit
  | dupdate (src len : Word)
  | dfinal (dst : Word)
  | digest (src len dst : Word)
  | minit (key klen : Word)
  | mupdate (src len : Word)
  | mfinal (dst : Word)
  | mac (src len key klen dst : Word)
  | kdf (src len dst outlen : Word)
deriving DecidableEq, Repr

end Sys2Proof
end

