-- ==== Sys2Proof/WellFormed.lean ====
section
/-! DEFINITION. The well-formedness checks: of a command, of a command word's fields, of a register
access (spec/44_host_access.md rule R200) and of the parameters (spec/00_scope.md rule R6). -/

namespace Sys2Proof

/-- `OP`, bits 7:0 of a command word (30_encoding.md rule R70). -/
def opField (w : Word) : BitVec 8 := w.extractLsb' 0 8

/-- `RSV`, bits 31:8 of a command word (30_encoding.md rule R70). -/
def rsvField (w : Word) : BitVec 24 := w.extractLsb' 8 24

/-- The nine operation codes of OPMAP, in the order of 30_encoding.md rule R73. -/
def opcodes : List (BitVec 8) := [0x01, 0x02, 0x03, 0x04, 0x11, 0x12, 0x13, 0x14, 0x21]

/-- A command word of the format CMDW: RSV is 0 and OP is in OPMAP (30_encoding.md rules R70, R73). -/
def wellFormedWord (w : Word) : Bool := rsvField w == 0 && opcodes.contains (opField w)

/-- A command carries no register number, immediate or mode (30_encoding.md rule R70), so there is
nothing in one that could be ill-formed: the check of each constructor is that it is one. -/
def Instr.wellFormed : Instr → Bool
  | .dinit => true
  | .dupdate => true
  | .dfinal => true
  | .digest => true
  | .minit => true
  | .mupdate => true
  | .mfinal => true
  | .mac => true
  | .kdf => true

/-- A register access that is part of the interface: 32 bits wide, aligned, inside the window
(44_host_access.md rule R200). -/
def admittedAccess (off width : Nat) : Bool :=
  decide (width = 32) && decide (off % 4 = 0) && decide (off < 0x100)

/-- The bounds of MEM_SIZE: 1 ≤ MEM_SIZE ≤ 2^32 (rule R6). -/
def Params.wellFormed (p : Params) : Bool :=
  decide (1 ≤ p.memSize) && decide (p.memSize ≤ 2 ^ 32)

end Sys2Proof
end

