-- ==== Sys2Proof/Decode.lean ====
section
/-! DEFINITION. Decoding and encoding of command words (spec/30_encoding.md rules R70 to R73, R78). -/

namespace Sys2Proof

/-- Why a word is ILLEGAL (rule R71). -/
inductive DecodeError where
  /-- `w[31:8] ≠ 0` (rule R78, first set). -/
  | reservedBitsSet
  /-- RSV = 0 and OP is not one of the nine (rule R78, second set). -/
  | unknownOpcode (op : BitVec 8)
deriving DecidableEq, Repr

/-- OPMAP (rule R73). -/
def opMap (op : BitVec 8) : Option Instr :=
  if op = 0x01 then some .dinit
  else if op = 0x02 then some .dupdate
  else if op = 0x03 then some .dfinal
  else if op = 0x04 then some .digest
  else if op = 0x11 then some .minit
  else if op = 0x12 then some .mupdate
  else if op = 0x13 then some .mfinal
  else if op = 0x14 then some .mac
  else if op = 0x21 then some .kdf
  else none

/-- The decoder, total on all 2^32 words (rule R71). -/
def decode (w : Word) : Except DecodeError Instr :=
  if rsvField w ≠ 0 then .error .reservedBitsSet
  else match opMap (opField w) with
    | some i => .ok i
    | none => .error (.unknownOpcode (opField w))

/-- The command word of each command (rule R73, column "word"). -/
def encode : Instr → Word
  | .dinit => 0x00000001
  | .dupdate => 0x00000002
  | .dfinal => 0x00000003
  | .digest => 0x00000004
  | .minit => 0x00000011
  | .mupdate => 0x00000012
  | .mfinal => 0x00000013
  | .mac => 0x00000014
  | .kdf => 0x00000021

/-- The instruction the decoder reads from the low `nbits` bits of `w`. A command is one 32-bit word,
which the host writes as a number (rules R56, R70, R72): bit 0 of `w` is bit 0 of the word, and a
number that does not fit one word is no command. -/
def decodeTableWord (nbits w : Nat) : Option Instr :=
  if w % 2 ^ nbits < 2 ^ 32 then
    match decode (BitVec.ofNat 32 (w % 2 ^ nbits)) with
    | .ok i => some i
    | .error _ => none
  else none

end Sys2Proof
end

