-- ==== Sys2Proof/Machine/Constants.lean ====
section
/-! DEFINITION. The fixed numbers of spec/00_scope.md rule R6 and the default values of its open
parameters. PRESUMED: the default `IV` and `KTAB`, the spec's general-knowledge tables (rules R7, R102,
R103; notes/assumptions/2.md). -/

namespace Sys2Proof.Machine

/-- `BLOCK_BYTES` (rule R6). -/
def blockBytes : Nat := 64

/-- `DIGEST_BYTES` (rule R6). -/
def digestBytes : Nat := 32

/-- `ROUNDS` (rule R6). -/
def rounds : Nat := 64

/-- `IPAD`, the inner-pad byte (rule R6). -/
def ipad : Byte := 0x36

/-- `OPAD`, the outer-pad byte (rule R6). -/
def opad : Byte := 0x5C

/-- `PAD_MARKER`, the byte that ends a message (rule R6). -/
def padMarker : Byte := 0x80

/-- The default initial chaining value (rule R102). -/
def defaultIv : Vector Word 8 :=
  #v[0x7380166F, 0x4914B2B9, 0x172442D7, 0xDA8A0600,
     0xA96F30BC, 0x163138AA, 0xE38DEE4D, 0xB0FB0E4E]

/-- The default round constants 0 to 15 (rule R103). -/
def defaultKtabLow : Vector Word 16 :=
  #v[0x79CC4519, 0xF3988A32, 0xE7311465, 0xCE6228CB, 0x9CC45197, 0x3988A32F, 0x7311465E, 0xE6228CBC,
     0xCC451979, 0x988A32F3, 0x311465E7, 0x6228CBCE, 0xC451979C, 0x88A32F39, 0x11465E73, 0x228CBCE6]

/-- The default round constants 16 to 31 (rule R103). -/
def defaultKtabMid : Vector Word 16 :=
  #v[0x9D8A7A87, 0x3B14F50F, 0x7629EA1E, 0xEC53D43C, 0xD8A7A879, 0xB14F50F3, 0x629EA1E7, 0xC53D43CE,
     0x8A7A879D, 0x14F50F3B, 0x29EA1E76, 0x53D43CEC, 0xA7A879D8, 0x4F50F3B1, 0x9EA1E762, 0x3D43CEC5]

/-- The default round constants 32 to 47 (rule R103). -/
def defaultKtabHigh : Vector Word 16 :=
  #v[0x7A879D8A, 0xF50F3B14, 0xEA1E7629, 0xD43CEC53, 0xA879D8A7, 0x50F3B14F, 0xA1E7629E, 0x43CEC53D,
     0x879D8A7A, 0x0F3B14F5, 0x1E7629EA, 0x3CEC53D4, 0x79D8A7A8, 0xF3B14F50, 0xE7629EA1, 0xCEC53D43]

/-- The default round constants: 0 to 15, 16 to 31, 32 to 47, and 48 to 63, which rule R103's table
lists with the values of 16 to 31. -/
def defaultKtab : Vector Word 64 :=
  defaultKtabLow ++ defaultKtabMid ++ defaultKtabHigh ++ defaultKtabMid

/-- The parameters the reset state carries: the default tables of rules R102 and R103 and the
MEM_SIZE of the spec's examples (rule R6). DESIGN CHOICE: `memSize`, `regBase` and `hostBusOrder`
are OPEN in the spec (notes/assumptions/1.md). -/
def defaultParams : Params where
  memSize := 0x10000
  iv := defaultIv
  ktab := defaultKtab
  regBase := 0
  hostBusOrder := .littleEndian

end Sys2Proof.Machine
end

