-- ==== Sys2Proof/Machine/State.lean ====
section
/-! DEFINITION. The state of the machine (spec/10_state.md), what stops a step, and reset. -/

namespace Sys2Proof.Machine

/-- The phase of a context (rule R35). -/
inductive Phase where
  /-- UNINIT (0): not initialised since reset. -/
  | uninit
  /-- READY (1): initialised, absorbing. -/
  | ready
  /-- FINALIZED (2): finished, not to be used again without an initialisation. -/
  | finalized
deriving DecidableEq, Repr

/-- The error codes 1 to 5 of 60_exceptions.md rule R220; code 0 is the absence of an error. -/
inductive ErrorCode where
  /-- 1: the command word is not one of the nine (rule R221). -/
  | illegalCommand
  /-- 2: the context is not READY (rule R222). -/
  | badState
  /-- 3: the requested KDF length is negative (rule R224). -/
  | badLength
  /-- 4: an operand range does not lie inside MEM (rule R223). -/
  | outOfRange
  /-- 5: the context's message would reach 2^64 bits (rule R227). -/
  | lengthOverflow
deriving DecidableEq, Repr

/-- A context (rule R32). `buf` holds the meaningful bytes `BUF[0 .. PENDING)` only, as rule R36
allows: PENDING is its length, and the bytes past it, whose values are unspecified, are not held. -/
structure Ctx where
  /-- `V[0..8)`, the chaining state. -/
  v : Vector Word 8
  /-- `BUF[0 .. PENDING)`, the pending bytes. -/
  buf : Bytes
  /-- `NBLOCKS`, the blocks compressed so far, 64 bits wide. -/
  nblocks : BitVec 64
deriving DecidableEq, Repr

/-- `PENDING`, the fill count of the scratch block (rules R32, R36). -/
def Ctx.pending (c : Ctx) : Nat := c.buf.length

/-- MEM (20_memory.md rule R50): the bytes that differ from what an unlisted address reads as, in
strictly rising order of address. Machine/Ops.lean holds its reads and writes. -/
abbrev Memory := List Host.Cell

/-- The whole machine: the engine's state of rule R21, the MEM it shares with the host (rule R50),
the parameters it is built with (rule R6), and the model's own record of the host's steps. -/
structure State where
  /-- The engine's configuration, which no step changes (rules R6, R21). -/
  params : Params
  /-- SRC_ADDR, offset 0x08 (rule R24). -/
  srcAddr : Word
  /-- SRC_LEN, offset 0x0C (rule R25). -/
  srcLen : Word
  /-- KEY_ADDR, offset 0x10 (rule R26). -/
  keyAddr : Word
  /-- KEY_LEN, offset 0x14 (rule R27). -/
  keyLen : Word
  /-- DST_ADDR, offset 0x18 (rule R28). -/
  dstAddr : Word
  /-- OUT_LEN, offset 0x1C (rule R29). -/
  outLen : Word
  /-- ERR, the code of the most recent command; `none` is NONE, code 0 (rules R23, R39, R220). -/
  err : Option ErrorCode
  /-- ERRSEEN, the sticky error flag (rules R23, R39). -/
  errSeen : Bool
  /-- DPHASE, the phase of DCTX (rules R33, R35). -/
  dphase : Phase
  /-- DCTX, the streaming digest context (rule R33). -/
  dctx : Ctx
  /-- MPHASE, the phase of MCTX (rules R34, R35). -/
  mphase : Phase
  /-- MINNER, the inner context of MCTX (rule R34). -/
  minner : Ctx
  /-- KEYBLOCK, the 64-byte key block of MCTX (rule R34). -/
  keyblock : Vector Byte 64
  /-- MEM (20_memory.md rule R50). -/
  mem : Memory
  /-- The model's own: the host's steps still to come, the "command stream the host issues" of rule
  R21 with its register and MEM accesses, in the total order of 20_memory.md rule R65. -/
  host : List HostStep
  /-- The model's own: what the host's reads have returned, oldest first. The bytes of MEM reads are kept
  by the model's choice and are no part of the observation (notes/assumptions/10.md). -/
  replies : List Reply
  /-- The model's own: the position of rule R37, the number of CMD writes issued. -/
  cmdCount : Nat
deriving DecidableEq, Repr

/-- What stops the machine with a fault: nothing. Every violated precondition of a command is an error
code in STATUS and a next state (60_exceptions.md rules R225, R230, R239). -/
inductive Fault
deriving DecidableEq, Repr

/-- What a step refuses. -/
inductive Refusal where
  /-- Raised by an arm of `exec` that has no meaning yet (safe: no claim is made). No arm is such. -/
  | notModelled (mnemonic : String)
  /-- Raised by a host register access that is not 32 bits wide, not aligned or outside the window:
  "A model refuses it; it must not give it a value" (44_host_access.md rule R200). Safe. -/
  | registerAccessNotAdmitted (off width : Nat)
  /-- Raised by a host access to MEM at or above MEM_SIZE: it "is outside this spec; a model refuses
  it" (44_host_access.md rule R204). Safe. -/
  | hostMemAccessOutside (addr : Nat)
deriving DecidableEq, Repr

/-- The machine at launch, right after reset (rules R43 and R250), with the parameters it is built
with, MEM as the host placed it (20_memory.md rule R51), and the host's steps to come. -/
def State.launch (p : Params) (m : Memory) (steps : List HostStep) : State where
  params := p
  srcAddr := 0
  srcLen := 0
  keyAddr := 0
  keyLen := 0
  dstAddr := 0
  outLen := 0
  err := none
  errSeen := false
  dphase := .uninit
  dctx := { v := Vector.replicate 8 0, buf := [], nblocks := 0 }
  mphase := .uninit
  minner := { v := Vector.replicate 8 0, buf := [], nblocks := 0 }
  keyblock := Vector.replicate 64 0
  mem := m
  host := steps
  replies := []
  cmdCount := 0

/-- The machine right after reset: the default parameters, MEM with nothing listed, no host step yet
(rules R43, R250, R252). -/
def State.reset : State := State.launch defaultParams [] []

end Sys2Proof.Machine
end

