-- ==== Sys2Proof/Machine/Compress.lean ====
section
/-! DEFINITION. The word operators, the word/byte codec and the compression core (spec/00_scope.md
rules R9 to R11, spec/40_datapath.md rules R100 to R111). -/

namespace Sys2Proof.Machine

/-- `rotl(x, r)` for 0 ≤ r ≤ 31 (rule R9). -/
def rotl (x : Word) (r : Nat) : Word := (x <<< r) ||| (x >>> (32 - r))

/-- `zeros(n)` (rule R10). -/
def zeros (n : Nat) : Bytes := List.replicate n 0

/-- `BE32(v)` (rule R11). -/
def be32 (v : Word) : Bytes :=
  [v.extractLsb' 24 8, v.extractLsb' 16 8, v.extractLsb' 8 8, v.extractLsb' 0 8]

/-- `BE64(v)` (rule R11). -/
def be64 (v : BitVec 64) : Bytes := be32 (v.extractLsb' 32 32) ++ be32 (v.extractLsb' 0 32)

/-- `readBE32(s, o)` (rules R11, R100). It requires o + 4 ≤ len(s), as every call satisfies. -/
def readBE32 (s : Bytes) (o : Nat) : Word :=
  BitVec.ofNat 32 ((s.getD o 0).toNat * 2 ^ 24 + (s.getD (o + 1) 0).toNat * 2 ^ 16
    + (s.getD (o + 2) 0).toNat * 2 ^ 8 + (s.getD (o + 3) 0).toNat)

/-- `writeBE32(s, o, v)` (rule R101). -/
def writeBE32 (s : Bytes) (o : Nat) (v : Word) : Bytes :=
  (((s.set o (v.extractLsb' 24 8)).set (o + 1) (v.extractLsb' 16 8)).set (o + 2)
    (v.extractLsb' 8 8)).set (o + 3) (v.extractLsb' 0 8)

/-- The permutation `P0` (rule R107). -/
def p0 (x : Word) : Word := x ^^^ rotl x 9 ^^^ rotl x 17

/-- The permutation `P1` (rule R107). -/
def p1 (x : Word) : Word := x ^^^ rotl x 15 ^^^ rotl x 23

/-- The boolean function `FF_j` (rule R108). -/
def ff (j : Nat) (x y z : Word) : Word :=
  if j ≤ 15 then x ^^^ y ^^^ z else (x &&& y) ||| (x &&& z) ||| (y &&& z)

/-- The boolean function `GG_j` (rule R108). -/
def gg (j : Nat) (x y z : Word) : Word :=
  if j ≤ 15 then x ^^^ y ^^^ z else ((y ^^^ z) &&& x) ^^^ z

/-- The word of a list at an index. -/
def wordAt (ws : List Word) (i : Nat) : Word := ws.getD i 0

/-- The message words `W[0..16)` of a block (rule R104). -/
def loadWords (blk : Bytes) : List Word := (List.range 16).map fun i => readBE32 blk (4 * i)

/-- `W[j]` from the words before it, `W[j-1]` first (rule R105). -/
def nextWord (ws : List Word) : Word :=
  p1 (wordAt ws 15 ^^^ wordAt ws 8 ^^^ rotl (wordAt ws 2) 15) ^^^ rotl (wordAt ws 12) 7 ^^^ wordAt ws 5

/-- `n` more words of the expansion, newest first (rule R105). -/
def extendWords : Nat → List Word → List Word
  | 0, ws => ws
  | n + 1, ws => extendWords n (nextWord ws :: ws)

/-- The expanded words `W[0..68)` of a block (rules R104, R105). -/
def expandWords (blk : Bytes) : List Word := (extendWords 52 (loadWords blk).reverse).reverse

/-- The auxiliary word `W'[j]` (rule R106). -/
def auxWord (ws : List Word) (j : Nat) : Word := wordAt ws j ^^^ wordAt ws (j + 4)

/-- The eight round registers (rule R40). -/
structure Regs where
  a : Word
  b : Word
  c : Word
  d : Word
  e : Word
  f : Word
  g : Word
  h : Word
deriving DecidableEq, Repr

/-- Round j: all right-hand sides use the registers from before the round (rule R109). -/
def roundFn (ktab : Vector Word 64) (ws : List Word) (r : Regs) (j : Nat) : Regs :=
  let ss1 := rotl (rotl r.a 12 + r.e + wordAt ktab.toList j) 7
  let ss2 := ss1 ^^^ rotl r.a 12
  let tt1 := ff j r.a r.b r.c + r.d + ss2 + auxWord ws j
  let tt2 := gg j r.e r.f r.g + r.h + ss1 + wordAt ws j
  { a := tt1, b := r.a, c := rotl r.b 9, d := r.c,
    e := p0 tt2, f := r.e, g := rotl r.f 19, h := r.g }

/-- The round registers start from the chaining state (rule R110). -/
def Regs.ofChain (v : Vector Word 8) : Regs :=
  { a := v[0], b := v[1], c := v[2], d := v[3], e := v[4], f := v[5], g := v[6], h := v[7] }

/-- The feed-forward: the registers XORed into the chaining state (rule R110). -/
def feedForward (v : Vector Word 8) (r : Regs) : Vector Word 8 :=
  #v[v[0] ^^^ r.a, v[1] ^^^ r.b, v[2] ^^^ r.c, v[3] ^^^ r.d,
     v[4] ^^^ r.e, v[5] ^^^ r.f, v[6] ^^^ r.g, v[7] ^^^ r.h]

/-- The compression function `CF(V, blk)` (rule R110). -/
def cf (ktab : Vector Word 64) (v : Vector Word 8) (blk : Bytes) : Vector Word 8 :=
  feedForward v ((List.range rounds).foldl (roundFn ktab (expandWords blk)) (Regs.ofChain v))

/-- The multi-block form `CFN(V, s)` over n blocks (rule R111). -/
def cfn (ktab : Vector Word 64) : Nat → Vector Word 8 → Bytes → Vector Word 8
  | 0, v, _ => v
  | n + 1, v, s => cfn ktab n (cf ktab v (s.take blockBytes)) (s.drop blockBytes)

end Sys2Proof.Machine
end

