-- ==== Sys2Proof/Machine/Context.lean ====
section
/-! DEFINITION. The context functions of the streaming digest engine (spec/41_digest.md rules R130 to
R137). A context function is given the parameters it uses: `IV` and `KTAB` (spec/00_scope.md R7). -/

namespace Sys2Proof.Machine

/-- `CtxInit` (rule R131). -/
def ctxInit (p : Params) : Ctx := { v := p.iv, buf := [], nblocks := 0 }

/-- `CtxZero` (rule R132). -/
def ctxZero : Ctx := { v := Vector.replicate 8 0, buf := [], nblocks := 0 }

/-- `MsgLen(ctx)`, in bytes (rule R133). -/
def msgLen (c : Ctx) : Nat := 64 * c.nblocks.toNat + c.pending

/-- `MsgBits(ctx)` (rule R133). -/
def msgBits (c : Ctx) : Nat := 512 * c.nblocks.toNat + 8 * c.pending

/-- `LenOK(ctx, n)` (rule R134). -/
def lenOK (c : Ctx) (n : Nat) : Bool := decide ((msgLen c + n) * 8 < 2 ^ 64)

/-- One block folded into a context: `V <- CF(V, blk); NBLOCKS <- NBLOCKS + 1`, with the scratch block
left empty (rule R135). -/
def foldBlock (p : Params) (c : Ctx) (blk : Bytes) : Ctx :=
  { v := cf p.ktab c.v blk, buf := [], nblocks := c.nblocks + 1 }

/-- The loop of rule R135 over `n` whole blocks taken straight from the data, and the remainder kept
in the scratch block. -/
def absorbBlocks (p : Params) : Nat → Ctx → Bytes → Ctx
  | 0, c, data => { c with buf := data }
  | n + 1, c, data => absorbBlocks p n (foldBlock p c (data.take blockBytes)) (data.drop blockBytes)

/-- `Absorb(ctx, data)` (rule R135). -/
def absorb (p : Params) (c : Ctx) (data : Bytes) : Ctx :=
  if c.pending > 0 then
    let t := min (blockBytes - c.pending) data.length
    let filled := c.buf ++ data.take t
    if filled.length < blockBytes then { c with buf := filled }
    else absorbBlocks p ((data.length - t) / blockBytes) (foldBlock p c filled) (data.drop t)
  else absorbBlocks p (data.length / blockBytes) c data

/-- The byte-serial form of Absorb, one byte (rule R138): the byte joins the pending ones, and the 64th
compresses the block. -/
def absorbByte (p : Params) (c : Ctx) (b : Byte) : Ctx :=
  let filled := c.buf ++ [b]
  if filled.length = blockBytes then foldBlock p c filled else { c with buf := filled }

/-- The digest bytes of a chaining state: `BE32(V[0]) ‖ … ‖ BE32(V[7])` (rule R136). -/
def serialise (v : Vector Word 8) : Bytes := v.toList.flatMap be32

/-- `Finish(ctx)`: the pending bytes are padded with `[0x80]`, zeros and `BE64(L)`, in one block when
PENDING is at most 55 and in two blocks otherwise, and the chaining state is serialised (rule R136). -/
def finish (p : Params) (c : Ctx) : Bytes :=
  let n := c.pending
  let len := be64 (BitVec.ofNat 64 (msgBits c))
  let blk := c.buf ++ [padMarker]
  if blockBytes - n - 1 ≥ 8 then
    serialise (cf p.ktab c.v (blk ++ zeros (55 - n) ++ len))
  else
    serialise (cf p.ktab (cf p.ktab c.v (blk ++ zeros (63 - n))) (zeros 56 ++ len))

/-- `Hash(m)`, through a private context (rule R137). -/
def hashFn (p : Params) (m : Bytes) : Bytes := finish p (absorb p (ctxInit p) m)

end Sys2Proof.Machine
end

