-- ==== Sys2Proof/Machine/Ops.lean ====
section
/-! DEFINITION. The named operations over MEM and the registers: MEM reads and writes
(spec/20_memory.md rules R52, R53), the error entry and the success rule (spec/60_exceptions.md rules
R225, R226), and the engine's reset (spec/70_reset_and_hazards.md rule R250). -/

namespace Sys2Proof.Machine

/-- What an address that MEM does not list reads as. DESIGN CHOICE: the spec makes MEM's launch
content an argument of the run (20_memory.md rule R51); see notes/assumptions/3.md. -/
def Memory.unlisted : Byte := 0

/-- The byte of MEM at an address. -/
def Memory.read : Memory → Nat → Byte
  | [], _ => Memory.unlisted
  | (k, c) :: m, a => if k = a then c else Memory.read m a

/-- MEM with one more cell in front, unless the byte is what an unlisted address reads as. -/
def Memory.cons (a : Nat) (b : Byte) (m : Memory) : Memory :=
  if b = Memory.unlisted then m else (a, b) :: m

/-- MEM after a write of one byte, in canonical form. -/
def Memory.write : Memory → Nat → Byte → Memory
  | [], a, b => Memory.cons a b []
  | (k, c) :: m, a, b =>
    if a < k then Memory.cons a b ((k, c) :: m)
    else if a = k then Memory.cons a b m
    else (k, c) :: Memory.write m a b

/-- `MemRead(addr, n)` (rule R52). -/
def Memory.readBytes (m : Memory) (addr n : Nat) : Bytes :=
  (List.range n).map fun i => m.read (addr + i)

/-- `MemWrite(addr, n, s)`, with n the length of s (rule R52). -/
def Memory.writeBytes (m : Memory) (addr : Nat) : Bytes → Memory
  | [] => m
  | b :: bs => (m.write addr b).writeBytes (addr + 1) bs

/-- The canonical form: addresses strictly rising, no entry equal to what an unlisted address reads
as. -/
def Memory.wf : Memory → Bool
  | [] => true
  | (a, b) :: m => decide (b ≠ Memory.unlisted) && m.all (fun cell => decide (a < cell.1)) && Memory.wf m

/-- Every listed address is an address of MEM: 0 to MEM_SIZE − 1 (rule R50). -/
def Memory.below (size : Nat) (m : Memory) : Bool := m.all fun cell => decide (cell.1 < size)

/-- `InRange(addr, n)`, on unbounded integers, with no wrap-around (rule R53). -/
def inRange (memSize : Nat) (addr : Word) (n : Nat) : Bool := decide (addr.toNat + n ≤ memSize)

/-- A command's write of its output range: MEM at the address operand (rules R52, R61). -/
def State.writeMem (s : State) (addr : Word) (bs : Bytes) : State :=
  { s with mem := s.mem.writeBytes addr.toNat bs }

/-- DCTX and DPHASE replaced (10_state.md rule R33). -/
def State.setDigest (s : State) (ph : Phase) (c : Ctx) : State := { s with dphase := ph, dctx := c }

/-- MCTX and MPHASE replaced (10_state.md rule R34). -/
def State.setMac (s : State) (ph : Phase) (c : Ctx) (kb : Vector Byte 64) : State :=
  { s with mphase := ph, minner := c, keyblock := kb }

/-- The error entry: `ERR <- code; ERRSEEN <- 1`, and nothing else (rule R225). There is no return
from it (rule R230). -/
def State.errorEntry (s : State) (code : ErrorCode) : State :=
  { s with err := some code, errSeen := true }

/-- The success rule: `ERR <- 0`, ERRSEEN left as it was (rule R226). -/
def State.success (s : State) : State := { s with err := none }

/-- One check of a check phase: the condition that must hold, and the error raised when it does not. -/
abbrev Check := Bool × ErrorCode

/-- The first failing check of a check phase, in the order written (rules R13, R228). -/
def firstFailing : List Check → Option ErrorCode
  | [] => none
  | (ok, code) :: rest => if ok then firstFailing rest else some code

/-- A command: its check phase, then its effect phase and the success rule, or the error entry
(00_scope.md rule R13, 44_host_access.md rule R203). -/
def runCommand (checks : List Check) (effect : State → State) (s : State) :
    Host.Outcome State Fault Refusal :=
  match firstFailing checks with
  | some code => .next (s.errorEntry code)
  | none => .next (effect s).success

/-- The reset event: the engine state of rule R21 takes the values of rule R43. MEM and the parameters
stay (rule R251), and so do the host's steps and what its reads returned, which are not the engine's. -/
def State.engineReset (s : State) : State :=
  { State.launch s.params s.mem s.host with replies := s.replies, cmdCount := s.cmdCount }

/-- The host's next step taken off the stream. -/
def State.withHost (s : State) (steps : List HostStep) : State := { s with host := steps }

/-- What a host read returned, kept (44_host_access.md rules R200, R204; notes/assumptions/10.md). -/
def State.deliver (s : State) (r : Reply) : State := { s with replies := s.replies ++ [r] }

/-- The position of rule R37 after one more CMD write. -/
def State.countCommand (s : State) : State := { s with cmdCount := s.cmdCount + 1 }

end Sys2Proof.Machine
end

