-- ==== Sys2Proof/Machine/Operands.lean ====
section
/-! DEFINITION. The operand forms of the commands: address and length registers, read as unsigned
numbers, and OUT_LEN, the one signed operand (spec/30_encoding.md rules R75 to R77), each with its
range check (spec/20_memory.md rule R53, spec/60_exceptions.md rule R223). -/

namespace Sys2Proof.Machine

/-- `InRange(SRC_ADDR, SRC_LEN)`. -/
def State.srcInRange (s : State) : Bool := inRange s.params.memSize s.srcAddr s.srcLen.toNat

/-- `InRange(KEY_ADDR, KEY_LEN)`. -/
def State.keyInRange (s : State) : Bool := inRange s.params.memSize s.keyAddr s.keyLen.toNat

/-- `InRange(DST_ADDR, n)`. -/
def State.dstInRange (s : State) (n : Nat) : Bool := inRange s.params.memSize s.dstAddr n

/-- `MemRead(SRC_ADDR, SRC_LEN)`: the input data or the secret (rules R24, R25). -/
def State.srcBytes (s : State) : Bytes := s.mem.readBytes s.srcAddr.toNat s.srcLen.toNat

/-- `MemRead(KEY_ADDR, KEY_LEN)`: the key (rules R26, R27). -/
def State.keyBytes (s : State) : Bytes := s.mem.readBytes s.keyAddr.toNat s.keyLen.toNat

/-- `sext_32(OUT_LEN)`, a two's-complement integer (rule R77). -/
def State.outLength (s : State) : Int := s.outLen.toInt

/-- `OUT_LEN[31] = 0`: the requested length is not negative (43_kdf.md rules R190, R192). -/
def State.outLengthLegal (s : State) : Bool := decide (0 ≤ s.outLength)

/-- The number of output bytes of a legal request. -/
def State.outCount (s : State) : Nat := s.outLength.toNat

end Sys2Proof.Machine
end

