-- ==== Sys2Proof/Machine/Digest.lean ====
section
/-! DEFINITION. The digest family: DINIT, DUPDATE, DFINAL and DIGEST (spec/41_digest.md rules R141 to
R145). -/

namespace Sys2Proof.Machine

/-- DINIT (rule R142): `CtxInit(DCTX); DPHASE <- READY`, in every phase. -/
def execDinit (s : State) : Host.Outcome State Fault Refusal :=
  runCommand [] (fun s => s.setDigest .ready (ctxInit s.params)) s

/-- DUPDATE (rule R143). -/
def execDupdate (s : State) : Host.Outcome State Fault Refusal :=
  runCommand
    [(s.dphase == .ready, .badState),
     (s.srcInRange, .outOfRange),
     (lenOK s.dctx s.srcLen.toNat, .lengthOverflow)]
    (fun s => s.setDigest .ready (absorb s.params s.dctx s.srcBytes)) s

/-- DFINAL (rule R144). -/
def execDfinal (s : State) : Host.Outcome State Fault Refusal :=
  runCommand
    [(s.dphase == .ready, .badState),
     (s.dstInRange digestBytes, .outOfRange)]
    (fun s => (s.writeMem s.dstAddr (finish s.params s.dctx)).setDigest .finalized ctxZero) s

/-- DIGEST (rule R145). -/
def execDigest (s : State) : Host.Outcome State Fault Refusal :=
  runCommand
    [(s.srcInRange && s.dstInRange digestBytes, .outOfRange)]
    (fun s => s.writeMem s.dstAddr (hashFn s.params s.srcBytes)) s

end Sys2Proof.Machine
end

