-- ==== Sys2Proof/Machine/Kdf.lean ====
section
/-! DEFINITION. The key-derivation function: KDF (spec/43_kdf.md rules R190 to R192). -/

namespace Sys2Proof.Machine

/-- The block of key stream of counter c: `Hash(s ‖ BE32(c))` (rule R191). -/
def kdfBlock (p : Params) (secret : Bytes) (c : Nat) : Bytes :=
  hashFn p (secret ++ be32 (BitVec.ofNat 32 c))

/-- The blocks of the counters 1 to `n`, in counter order (rule R191). -/
def kdfBlocks (p : Params) (secret : Bytes) (n : Nat) : Bytes :=
  (List.range n).flatMap fun i => kdfBlock p secret (i + 1)

/-- `KdfFn(s, n)`: the blocks of the counters 1 to ceil(n / 32), truncated to n bytes (rule R191). -/
def kdfFn (p : Params) (secret : Bytes) (n : Nat) : Bytes :=
  (kdfBlocks p secret ((n + 31) / digestBytes)).take n

/-- KDF (rule R192). -/
def execKdf (s : State) : Host.Outcome State Fault Refusal :=
  runCommand
    [(s.outLengthLegal, .badLength),
     (s.srcInRange && s.dstInRange s.outCount, .outOfRange)]
    (fun s => s.writeMem s.dstAddr (kdfFn s.params s.srcBytes s.outCount)) s

end Sys2Proof.Machine
end

