-- ==== Sys2Proof/Machine/Mac.lean ====
section
/-! DEFINITION. The MAC family: MINIT, MUPDATE, MFINAL and MAC (spec/42_mac.md rules R160 to R167). -/

namespace Sys2Proof.Machine

/-- A byte sequence right-padded with zeros to 64 bytes. -/
def padTo64 (bs : Bytes) : Vector Byte 64 := Vector.ofFn fun i => bs.getD i 0

/-- `K0(key)`: the key itself when it has at most 64 bytes, else its digest, right-padded with zeros
(rule R161). -/
def k0 (p : Params) (key : Bytes) : Vector Byte 64 :=
  padTo64 (if key.length ≤ 64 then key else hashFn p key)

/-- `kb xorb c` on a key block (00_scope.md rule R10). -/
def xorBlock (kb : Vector Byte 64) (c : Byte) : Vector Byte 64 := kb.map (· ^^^ c)

/-- `KeyBlock(key) = K0(key) xorb IPAD` (rule R161). -/
def keyBlock (p : Params) (key : Bytes) : Vector Byte 64 := xorBlock (k0 p key) ipad

/-- `Toggle(kb) = kb xorb (IPAD xor OPAD)` (rule R162). -/
def toggle (kb : Vector Byte 64) : Vector Byte 64 := xorBlock kb (ipad ^^^ opad)

/-- The inner context of a new MAC: `CtxInit`, then the key block absorbed (rule R163). -/
def macInner (p : Params) (kb : Vector Byte 64) : Ctx := absorb p (ctxInit p) kb.toList

/-- The MAC of an inner context and its stored key block: the toggle, the inner digest, and the outer
digest in the reinitialised context (rule R165). -/
def macFinish (p : Params) (inner : Ctx) (kb : Vector Byte 64) : Bytes :=
  let outerKey := toggle kb
  let ih := finish p inner
  finish p (absorb p (absorb p (ctxInit p) outerKey.toList) ih)

/-- The one-shot MAC: rules R163, R164 and R165 run on a private MAC context (rule R166). -/
def macOneShot (p : Params) (data key : Bytes) : Bytes :=
  let kb := keyBlock p key
  macFinish p (absorb p (macInner p kb) data) kb

/-- `MacFn(data, key)`, the nested-digest formula that rule R160 derives. -/
def macFn (p : Params) (data key : Bytes) : Bytes :=
  hashFn p ((xorBlock (k0 p key) opad).toList ++ hashFn p ((xorBlock (k0 p key) ipad).toList ++ data))

/-- MINIT (rule R163). -/
def execMinit (s : State) : Host.Outcome State Fault Refusal :=
  runCommand
    [(s.keyInRange, .outOfRange)]
    (fun s =>
      let kb := keyBlock s.params s.keyBytes
      s.setMac .ready (macInner s.params kb) kb) s

/-- MUPDATE (rule R164). -/
def execMupdate (s : State) : Host.Outcome State Fault Refusal :=
  runCommand
    [(s.mphase == .ready, .badState),
     (s.srcInRange, .outOfRange),
     (lenOK s.minner s.srcLen.toNat, .lengthOverflow)]
    (fun s => s.setMac .ready (absorb s.params s.minner s.srcBytes) s.keyblock) s

/-- MFINAL (rule R165). -/
def execMfinal (s : State) : Host.Outcome State Fault Refusal :=
  runCommand
    [(s.mphase == .ready, .badState),
     (s.dstInRange digestBytes, .outOfRange)]
    (fun s => (s.writeMem s.dstAddr (macFinish s.params s.minner s.keyblock)).setMac .finalized
      ctxZero (Vector.replicate 64 0)) s

/-- MAC (rule R166). -/
def execMac (s : State) : Host.Outcome State Fault Refusal :=
  runCommand
    [(s.srcInRange && s.keyInRange && s.dstInRange digestBytes, .outOfRange)]
    (fun s => s.writeMem s.dstAddr (macOneShot s.params s.srcBytes s.keyBytes)) s

end Sys2Proof.Machine
end

