-- ==== Sys2Proof/Machine/Dispatch.lean ====
section
/-! DEFINITION. The dispatcher over the commands (spec/44_host_access.md rule R203): one arm per
constructor of Instr. -/

namespace Sys2Proof.Machine

def exec (i : Instr) (s : State) : Host.Outcome State Fault Refusal :=
  match i with
  | .dinit => Sys2Proof.Machine.execDinit s
  | .dupdate => Sys2Proof.Machine.execDupdate s
  | .dfinal => Sys2Proof.Machine.execDfinal s
  | .digest => Sys2Proof.Machine.execDigest s
  | .minit => Sys2Proof.Machine.execMinit s
  | .mupdate => Sys2Proof.Machine.execMupdate s
  | .mfinal => Sys2Proof.Machine.execMfinal s
  | .mac => Sys2Proof.Machine.execMac s
  | .kdf => Sys2Proof.Machine.execKdf s

end Sys2Proof.Machine
end

