-- ==== Sys2Proof/Machine/Flags.lean ====
section
/-! DEFINITION. STATUS, composed from the state when it is read (spec/10_state.md rule R23), and the
encodings of its fields (spec/10_state.md rule R35, spec/60_exceptions.md rule R220). The flags ERR
and ERRSEEN are written by `State.errorEntry` and `State.success` of Machine/Ops.lean alone (rule
R39). -/

namespace Sys2Proof.Machine

/-- The STATUS encoding of a phase; encoding 3 is never produced (rule R35). -/
def Phase.code : Phase → Word
  | .uninit => 0
  | .ready => 1
  | .finalized => 2

/-- The number of an error code (rule R220). -/
def ErrorCode.code : ErrorCode → Word
  | .illegalCommand => 1
  | .badState => 2
  | .badLength => 3
  | .outOfRange => 4
  | .lengthOverflow => 5

/-- The 4-bit value of ERR: 0 on success, else the error code (rules R23, R220). -/
def errValue : Option ErrorCode → Word
  | none => 0
  | some e => e.code

/-- The value of ERRSEEN as a bit. -/
def flagBit (b : Bool) : Word := if b then 1 else 0

/-- STATUS (rule R23). -/
def State.status (s : State) : Word :=
  s.dphase.code ||| s.mphase.code <<< 2 ||| flagBit s.errSeen <<< 7 ||| errValue s.err <<< 8
    ||| BitVec.ofNat 32 s.dctx.pending <<< 16 ||| BitVec.ofNat 32 s.minner.pending <<< 24

end Sys2Proof.Machine
end

