-- ==== Sys2Proof/Machine/HostAccess.lean ====
section
/-! DEFINITION. The host's steps (spec/44_host_access.md rules R200 to R204): register reads and
writes, the issue of a command by a CMD write, MEM byte accesses, and the reset event; and the
expansion of the host-program notation (spec/30_encoding.md rules R80 and R81). -/

namespace Sys2Proof.Machine

/-- `RDREG(off)` of an admitted access: CMD reads as 0, STATUS is composed, the argument registers
read as they stand, and the reserved offsets read as 0 (rules R22, R30, R200). -/
def readReg (s : State) (off : Nat) : Word :=
  match off with
  | 0x04 => s.status
  | 0x08 => s.srcAddr
  | 0x0C => s.srcLen
  | 0x10 => s.keyAddr
  | 0x14 => s.keyLen
  | 0x18 => s.dstAddr
  | 0x1C => s.outLen
  | _ => 0

/-- The effect of an admitted write at an offset other than CMD's: the argument registers take the
value, STATUS and the reserved offsets ignore it (rules R30, R201). -/
def setReg (s : State) (off : Nat) (v : Word) : State :=
  match off with
  | 0x08 => { s with srcAddr := v }
  | 0x0C => { s with srcLen := v }
  | 0x10 => { s with keyAddr := v }
  | 0x14 => { s with keyLen := v }
  | 0x18 => { s with dstAddr := v }
  | 0x1C => { s with outLen := v }
  | _ => s

/-- `Execute(w)`: an illegal word raises ILLEGAL_COMMAND, any other runs its command (rules R71, R203,
R221). -/
def execute (w : Word) (s : State) : Host.Outcome State Fault Refusal :=
  match decode w with
  | .error _ => .next (s.errorEntry .illegalCommand)
  | .ok i => exec i s

/-- `WRREG(off, v)` of an admitted access: a write to CMD executes a command within the write, and
counts as one position of the command stream (rules R37, R201, R202). -/
def writeReg (s : State) (off : Nat) (v : Word) : Host.Outcome State Fault Refusal :=
  if off = 0x00 then execute v s.countCommand else .next (setReg s off v)

/-- One step of the host (rules R200, R201, R204, R250). -/
def hostStep (h : HostStep) (s : State) : Host.Outcome State Fault Refusal :=
  match h with
  | .readReg off width =>
    if admittedAccess off width then .next (s.deliver (.reg off (readReg s off)))
    else .refused (.registerAccessNotAdmitted off width)
  | .writeReg off width v =>
    if admittedAccess off width then writeReg s off v
    else .refused (.registerAccessNotAdmitted off width)
  | .readMem addr =>
    if addr < s.params.memSize then .next (s.deliver (.mem addr (s.mem.read addr)))
    else .refused (.hostMemAccessOutside addr)
  | .writeMem addr b =>
    if addr < s.params.memSize then .next { s with mem := s.mem.write addr b }
    else .refused (.hostMemAccessOutside addr)
  | .reset => .next s.engineReset

/-- The next step of a run: the host's next step, taken off its stream. With no step to come the
engine is idle and all of its state persists (rules R37, R237, R252). -/
def nextStep (s : State) : Host.Outcome State Fault Refusal :=
  match s.host with
  | [] => .next s
  | h :: rest => hostStep h (s.withHost rest)

/-- A 32-bit write of a register, as a host step. -/
def wr (off : Nat) (v : Word) : HostStep := .writeReg off 32 v

/-- The value of a reply to a register read. A reply to a MEM read has none. -/
def registerValue : Reply → Option Word
  | .reg _ v => some v
  | .mem _ _ => none

/-- The values that the host's RDREG steps returned, oldest first (rule R205). -/
def registerValues (replies : List Reply) : List Word := replies.filterMap registerValue

/-- The host's next step made the CMD write of a word (rule R70). -/
def issue (s : State) (w : Word) : State := s.withHost (wr 0x00 w :: s.host)

/-- `MEMW`: the bytes written from an address upwards (rule R80). -/
def memWrites (addr : Nat) : Bytes → List HostStep
  | [] => []
  | b :: bs => .writeMem addr b :: memWrites (addr + 1) bs

/-- The host steps of a statement, in the order listed (rules R80, R81). -/
def expand : HostStmt → List HostStep
  | .wr off v => [wr off v]
  | .rd off => [.readReg off 32]
  | .memw addr bs => memWrites addr bs
  | .memr addr n => (List.range n).map fun i => .readMem (addr + i)
  | .cmd w => [wr 0x00 w]
  | .dinit => [wr 0x00 0x00000001]
  | .dupdate src len => [wr 0x08 src, wr 0x0C len, wr 0x00 0x00000002]
  | .dfinal dst => [wr 0x18 dst, wr 0x00 0x00000003]
  | .digest src len dst => [wr 0x08 src, wr 0x0C len, wr 0x18 dst, wr 0x00 0x00000004]
  | .minit key klen => [wr 0x10 key, wr 0x14 klen, wr 0x00 0x00000011]
  | .mupdate src len => [wr 0x08 src, wr 0x0C len, wr 0x00 0x00000012]
  | .mfinal dst => [wr 0x18 dst, wr 0x00 0x00000013]
  | .mac src len key klen dst =>
    [wr 0x08 src, wr 0x0C len, wr 0x10 key, wr 0x14 klen, wr 0x18 dst, wr 0x00 0x00000014]
  | .kdf src len dst outlen =>
    [wr 0x08 src, wr 0x0C len, wr 0x18 dst, wr 0x1C outlen, wr 0x00 0x00000021]

/-- The host steps of a program: its statements' steps, one statement after the other (rule R80). -/
def assemble (prog : List HostStmt) : List HostStep := prog.flatMap expand

end Sys2Proof.Machine
end

