-- ==== Sys2Proof/Machine/Step.lean ====
section
/-! DEFINITION. One step of the machine: the host's next step, a command inside the step that writes
CMD (spec/10_state.md rule R20, spec/44_host_access.md rule R202). -/

namespace Sys2Proof.Machine

/-- One step. -/
def step (s : State) : Host.Outcome State Fault Refusal := nextStep s

/-- The state with the word of an instruction where `step` fetches: as the CMD write that the host
makes next (notes/assumptions/4.md). -/
def State.withFetchWord (s : State) (nbits w : Nat) : State :=
  issue s (BitVec.ofNat 32 (w % 2 ^ nbits))

end Sys2Proof.Machine
end

