-- ==== Sys2Proof/Safety.lean ====
section
/-! DEFINITION. What counts as a safe run, in the words the claims use: the invariant of the machine,
what a context holds, the operand registers and the output range of each command, and the observation
of a run. -/

namespace Sys2Proof.Machine

/-- A context holds the message m: NBLOCKS whole blocks of it folded into the chaining state, the rest
of it pending (spec/41_digest.md rule R138). -/
structure CtxHolds (p : Params) (c : Ctx) (m : Bytes) : Prop where
  nblocks : c.nblocks.toNat = m.length / 64
  buf : c.buf = m.drop (64 * (m.length / 64))
  v : c.v = cfn p.ktab (m.length / 64) p.iv m

/-- The invariant of the machine. -/
structure MachineInv (s : State) : Prop where
  /-- 1 ≤ MEM_SIZE ≤ 2^32 (00_scope.md rule R6). -/
  params : s.params.wellFormed = true
  /-- MEM keeps its canonical form (notes/assumptions/3.md). -/
  memCanonical : s.mem.wf = true
  /-- MEM lists only addresses 0 to MEM_SIZE − 1 (20_memory.md rule R50). -/
  memBelow : s.mem.below s.params.memSize = true
  /-- PENDING ∈ [0, 64) between commands, for DCTX (rules R32, R140). -/
  dPending : s.dctx.pending < 64
  /-- PENDING ∈ [0, 64) between commands, for MINNER (rules R32, R140). -/
  mPending : s.minner.pending < 64
  /-- The length limit of DCTX's message (41_digest.md rule R134). -/
  dLength : s.dphase = .ready → msgLen s.dctx ≤ 2 ^ 61 - 1
  /-- The length limit of MINNER's message (41_digest.md rule R134). -/
  mLength : s.mphase = .ready → msgLen s.minner ≤ 2 ^ 61 - 1
  /-- DCTX is zero before an initialisation and after a final (rules R43, R132). -/
  dZero : s.dphase ≠ .ready → s.dctx = ctxZero
  /-- MINNER and KEYBLOCK are zero before an initialisation and after a final (rules R43, R165). -/
  mZero : s.mphase ≠ .ready → s.minner = ctxZero ∧ s.keyblock = Vector.replicate 64 0
  /-- An error in ERR has set ERRSEEN (10_state.md rule R39). -/
  errSticky : s.err ≠ none → s.errSeen = true

/-- A READY context holds a message, within the length limit: DCTX any message, MINNER the key block
that KEYBLOCK stores followed by the data (41_digest.md R138, 10_state.md R34, 42_mac.md R163). -/
structure HoldsMessages (s : State) : Prop where
  digest : s.dphase = .ready → ∃ m : Bytes, m.length ≤ 2 ^ 61 - 1 ∧ CtxHolds s.params s.dctx m
  mac : s.mphase = .ready → ∃ key data : Bytes, s.keyblock = keyBlock s.params key ∧
    64 + data.length ≤ 2 ^ 61 - 1 ∧ CtxHolds s.params s.minner (s.keyblock.toList ++ data)

/-- The operand registers a command reads, by their offsets (30_encoding.md rule R73, "reads"). -/
def operandOffsets : Instr → List Nat
  | .dinit => []
  | .dupdate => [0x08, 0x0C]
  | .dfinal => [0x18]
  | .digest => [0x08, 0x0C, 0x18]
  | .minit => [0x10, 0x14]
  | .mupdate => [0x08, 0x0C]
  | .mfinal => [0x18]
  | .mac => [0x08, 0x0C, 0x10, 0x14, 0x18]
  | .kdf => [0x08, 0x0C, 0x18, 0x1C]

/-- The length of a command's output range, which starts at DST_ADDR (20_memory.md rule R61). -/
def outputLength (i : Instr) (s : State) : Nat :=
  match i with
  | .dinit => 0
  | .dupdate => 0
  | .dfinal => digestBytes
  | .digest => digestBytes
  | .minit => 0
  | .mupdate => 0
  | .mfinal => digestBytes
  | .mac => digestBytes
  | .kdf => s.outCount

/-- The six argument registers hold the same values in two states (10_state.md rule R31). -/
def sameArguments (s t : State) : Prop :=
  t.srcAddr = s.srcAddr ∧ t.srcLen = s.srcLen ∧ t.keyAddr = s.keyAddr ∧ t.keyLen = s.keyLen ∧
    t.dstAddr = s.dstAddr ∧ t.outLen = s.outLen

/-- A host step that cannot change the engine other than an argument register: any but a CMD write and
the reset event (20_memory.md rule R58, 70_reset_and_hazards.md rule R250). -/
def quietStep : HostStep → Bool
  | .readReg _ _ => true
  | .writeReg off _ _ => decide (off ≠ 0)
  | .readMem _ => true
  | .writeMem _ _ => true
  | .reset => false

/-- A run of n steps, which stops at the first step that does not go on. -/
def runSteps : Nat → State → Host.Outcome State Fault Refusal
  | 0, s => .next s
  | n + 1, s =>
    match step s with
    | .next t => runSteps n t
    | .fault r => .fault r
    | .refused r => .refused r

/-- The observation of a run, which is two things: the final MEM, and the values that the host's RDREG steps
returned (44_host_access.md rule R205). -/
def observation (s : State) : Memory × List Word := (s.mem, registerValues s.replies)

/-- No command of the run since reset ended in an error (44_host_access.md rule R205). -/
def noErrorSeen (s : State) : Prop := s.errSeen = false

end Sys2Proof.Machine
end

