-- ==== Sys2Proof/Certificates/Slice0/Obligations.lean ====
section
/-! DEFINITION. The statements about the model, from the numbered rules of spec/. Each docstring names the
rule or the section of spec/ it formalises. A success of a command is written as the record of its next
state, so that a result statement is at once the frame and the completion of the command. -/

open Sys2Proof Sys2Proof.Machine

/-! ### Encoding and issue -/

/-- Decode and encode agree in both directions: every command's word decodes to it, and a word that
decodes to a command is that command's word (30_encoding.md sections 1 and 2). -/
def Obligations.DecodeEncodeAgree : Prop :=
  (∀ i : Instr, i.wellFormed = true → decode (encode i) = .ok i) ∧
    ∀ (w : Word) (i : Instr), decode w = .ok i → i.wellFormed = true ∧ encode i = w

/-- Words written out from the encoding table of rule R73, one or more of each family, and words of both
illegal sets of rule R78 (30_encoding.md sections 2 and 4). -/
def Obligations.WordsOfEachFamilyDecode : Prop :=
  decode 0x00000001 = .ok .dinit ∧ decode 0x00000004 = .ok .digest ∧
    decode 0x00000011 = .ok .minit ∧ decode 0x00000014 = .ok .mac ∧ decode 0x00000021 = .ok .kdf ∧
    decode 0x00000101 = .error .reservedBitsSet ∧ decode 0x80000001 = .error .reservedBitsSet ∧
    decode 0x00000000 = .error (.unknownOpcode 0x00) ∧
    decode 0x00000022 = .error (.unknownOpcode 0x22)

/-- A CMD write of any word outside the nine raises ILLEGAL_COMMAND, whose error entry is its only effect
on the engine and MEM; the model's own stream and position move on (rule R78). -/
def Obligations.WordsOutsideTheNineAreIllegal : Prop :=
  ∀ (w : Word) (s : State) (rest : List HostStep),
    w ∉ ([0x01, 0x02, 0x03, 0x04, 0x11, 0x12, 0x13, 0x14, 0x21] : List Word) →
    s.host = .writeReg 0x00 32 w :: rest →
    step s = .next { s with
      err := some .illegalCommand, errSeen := true, host := rest, cmdCount := s.cmdCount + 1 }

/-- A step at a CMD write whose word decodes to a command is that command at the state with the host step
taken off the stream and the position counted (44_host_access.md, issue of a command). -/
def Obligations.StepRunsTheDecodedCommand : Prop :=
  ∀ (w : Word) (i : Instr) (s : State) (rest : List HostStep),
    decode w = .ok i → s.host = .writeReg 0x00 32 w :: rest →
    step s = exec i { s with host := rest, cmdCount := s.cmdCount + 1 }

/-- The position rises by 1 at every CMD write, those that end in an error included (10_state.md section
4, position of the command stream), and at no other step. That it stays at a reset step too is the
model's choice: notes/assumptions/4.md. -/
def Obligations.PositionCountsCmdWrites : Prop :=
  ∀ (s t : State) (h : HostStep) (rest : List HostStep), s.host = h :: rest → step s = .next t →
    t.host = rest ∧
      ((∃ w, h = .writeReg 0x00 32 w) → t.cmdCount = s.cmdCount + 1) ∧
      ((∀ w, h ≠ .writeReg 0x00 32 w) → t.cmdCount = s.cmdCount)

/-- With no host step to come the engine is idle and all of its state persists. The model's choice for
the end of the stream: notes/assumptions/4.md (60_exceptions.md section 6, idle between commands). -/
def Obligations.IdleStepChangesNothing : Prop :=
  ∀ s : State, s.host = [] → step s = .next s

/-! ### Host accesses -/

/-- A register read is admitted or refused, changes no state of the engine or MEM, and delivers the value
of its offset (rule R200). -/
def Obligations.RegisterReadDeliversItsValue : Prop :=
  ∀ (s : State) (off width : Nat) (rest : List HostStep), s.host = .readReg off width :: rest →
    (width = 32 ∧ off % 4 = 0 ∧ off < 0x100 →
      step s = .next { s with
        host := rest,
        replies := s.replies ++ [.reg off
          (if off = 0x04 then s.status
           else if off = 0x08 then s.srcAddr
           else if off = 0x0C then s.srcLen
           else if off = 0x10 then s.keyAddr
           else if off = 0x14 then s.keyLen
           else if off = 0x18 then s.dstAddr
           else if off = 0x1C then s.outLen
           else 0)] }) ∧
    (¬(width = 32 ∧ off % 4 = 0 ∧ off < 0x100) →
      step s = .refused (.registerAccessNotAdmitted off width))

/-- A register write is admitted or refused; at CMD it executes the word, at an argument register it
replaces the register, and elsewhere it has no effect (rule R201). -/
def Obligations.RegisterWriteEffects : Prop :=
  ∀ (s : State) (off width : Nat) (v : Word) (rest : List HostStep),
    s.host = .writeReg off width v :: rest →
    (width = 32 ∧ off % 4 = 0 ∧ off < 0x100 →
      step s =
        if off = 0x00 then execute v { s with host := rest, cmdCount := s.cmdCount + 1 }
        else if off = 0x08 then .next { s with host := rest, srcAddr := v }
        else if off = 0x0C then .next { s with host := rest, srcLen := v }
        else if off = 0x10 then .next { s with host := rest, keyAddr := v }
        else if off = 0x14 then .next { s with host := rest, keyLen := v }
        else if off = 0x18 then .next { s with host := rest, dstAddr := v }
        else if off = 0x1C then .next { s with host := rest, outLen := v }
        else .next { s with host := rest }) ∧
    (¬(width = 32 ∧ off % 4 = 0 ∧ off < 0x100) →
      step s = .refused (.registerAccessNotAdmitted off width))

/-- An argument register reads back as written: a write and then a read of one of the six delivers the
written value (10_state.md section 2). -/
def Obligations.ArgumentRegistersReadBack : Prop :=
  ∀ (s : State) (off : Nat) (v : Word) (rest : List HostStep),
    off ∈ [0x08, 0x0C, 0x10, 0x14, 0x18, 0x1C] →
    s.host = .writeReg off 32 v :: .readReg off 32 :: rest →
    ∃ t : State, runSteps 2 s = .next t ∧
      t.replies = s.replies ++ [.reg off v] ∧ t.host = rest

/-- Host accesses to MEM: below MEM_SIZE a read delivers the byte, and a write replaces that byte and no
other; at or above MEM_SIZE they are refused (rule R204). That the byte read is kept in the replies is the
model's choice: notes/assumptions/10.md. -/
def Obligations.HostMemAccess : Prop :=
  ∀ (s : State) (a : Nat) (b : Byte) (rest : List HostStep),
    (s.host = .readMem a :: rest → a < s.params.memSize →
      step s = .next { s with host := rest, replies := s.replies ++ [.mem a (s.mem.read a)] }) ∧
    (s.host = .writeMem a b :: rest → a < s.params.memSize → s.mem.wf = true →
      ∃ m : Memory, step s = .next { s with host := rest, mem := m } ∧
        m.read a = b ∧ ∀ x, x ≠ a → m.read x = s.mem.read x) ∧
    (s.host = .readMem a :: rest → s.params.memSize ≤ a →
      step s = .refused (.hostMemAccessOutside a)) ∧
    (s.host = .writeMem a b :: rest → s.params.memSize ≤ a →
      step s = .refused (.hostMemAccessOutside a))

/-- Only a CMD write and reset touch the engine beyond its argument registers: every other host step
leaves the flags, the phases, the contexts and KEYBLOCK, so data already absorbed stays as it was
whatever the host writes to MEM later (20_memory.md sections 3 and 5). -/
def Obligations.QuietHostStepsLeaveTheEngine : Prop :=
  ∀ (s t : State) (h : HostStep) (rest : List HostStep),
    s.host = h :: rest → quietStep h = true → step s = .next t →
    t.err = s.err ∧ t.errSeen = s.errSeen ∧ t.dphase = s.dphase ∧ t.dctx = s.dctx ∧
      t.mphase = s.mphase ∧ t.minner = s.minner ∧ t.keyblock = s.keyblock ∧ t.params = s.params

/-- The reset event sets the engine's state to the values of rule R43, keeps MEM and the parameters, and
leaves STATUS 0; no other step clears ERRSEEN (rules R250, R251). The clauses on host, replies and
cmdCount, that a reset step takes itself off the stream and leaves the replies and the position, are the
model's choice: notes/assumptions/4.md. -/
def Obligations.ResetEventValues : Prop :=
  (∀ (s : State) (rest : List HostStep), s.host = .reset :: rest →
    ∃ t : State, step s = .next t ∧
      (t.srcAddr = 0 ∧ t.srcLen = 0 ∧ t.keyAddr = 0 ∧ t.keyLen = 0 ∧ t.dstAddr = 0 ∧ t.outLen = 0) ∧
      (t.err = none ∧ t.errSeen = false ∧ t.dphase = .uninit ∧ t.mphase = .uninit) ∧
      (t.dctx = { v := Vector.replicate 8 0, buf := [], nblocks := 0 } ∧
        t.minner = { v := Vector.replicate 8 0, buf := [], nblocks := 0 } ∧
        t.keyblock = Vector.replicate 64 0) ∧
      t.status = 0 ∧ t.mem = s.mem ∧ t.params = s.params ∧ t.host = rest ∧
      t.replies = s.replies ∧ t.cmdCount = s.cmdCount) ∧
  ∀ s t : State, step s = .next t → s.errSeen = true → t.errSeen = false →
    ∃ rest, s.host = .reset :: rest

/-- STATUS read as its fields, with the values each may take: its reserved bits are 0, phase encoding 3
and ERR codes 6 to 15 are never produced; a host write to it changes nothing (rule R23). -/
def Obligations.StatusFields : Prop :=
  (∀ s : State, s.dctx.pending < 64 → s.minner.pending < 64 →
    (s.status.extractLsb' 0 2).toNat =
        (match s.dphase with | .uninit => 0 | .ready => 1 | .finalized => 2) ∧
      (s.status.extractLsb' 2 2).toNat =
        (match s.mphase with | .uninit => 0 | .ready => 1 | .finalized => 2) ∧
      s.status.extractLsb' 4 3 = 0 ∧
      s.status.getLsbD 7 = s.errSeen ∧
      (s.status.extractLsb' 8 4).toNat =
        (match s.err with
          | none => 0
          | some .illegalCommand => 1
          | some .badState => 2
          | some .badLength => 3
          | some .outOfRange => 4
          | some .lengthOverflow => 5) ∧
      s.status.extractLsb' 12 4 = 0 ∧
      (s.status.extractLsb' 16 6).toNat = s.dctx.pending ∧
      s.status.extractLsb' 22 2 = 0 ∧
      (s.status.extractLsb' 24 6).toNat = s.minner.pending ∧
      s.status.extractLsb' 30 2 = 0) ∧
  ∀ (s : State) (v : Word) (rest : List HostStep), s.host = .writeReg 0x04 32 v :: rest →
    step s = .next { s with host := rest }

/-- What a register read can tell of the contexts is PENDING alone: V, the bytes of BUF, NBLOCKS and
KEYBLOCK do not reach any register (10_state.md section 5). -/
def Obligations.ReadsDoNotRevealTheContexts : Prop :=
  ∀ (s : State) (c c' : Ctx) (kb : Vector Byte 64) (off : Nat),
    c.pending = s.dctx.pending → c'.pending = s.minner.pending →
    readReg { s with dctx := c, minner := c', keyblock := kb } off = readReg s off

/-- The operand form of each command mnemonic writes its operands first, in the order listed, and then
runs the command (rule R81). -/
def Obligations.OperandFormsExpand : Prop :=
  ∀ (s : State) (rest : List HostStep) (src len key klen dst outlen : Word),
    let run := fun (st : HostStmt) =>
      runSteps (expand st).length { s with host := expand st ++ rest }
    let s' := { s with host := rest, cmdCount := s.cmdCount + 1 }
    run .dinit = exec .dinit s' ∧
      run (.dupdate src len) = exec .dupdate { s' with srcAddr := src, srcLen := len } ∧
      run (.dfinal dst) = exec .dfinal { s' with dstAddr := dst } ∧
      run (.digest src len dst) =
        exec .digest { s' with srcAddr := src, srcLen := len, dstAddr := dst } ∧
      run (.minit key klen) = exec .minit { s' with keyAddr := key, keyLen := klen } ∧
      run (.mupdate src len) = exec .mupdate { s' with srcAddr := src, srcLen := len } ∧
      run (.mfinal dst) = exec .mfinal { s' with dstAddr := dst } ∧
      run (.mac src len key klen dst) =
        exec .mac { s' with
          srcAddr := src, srcLen := len, keyAddr := key, keyLen := klen, dstAddr := dst } ∧
      run (.kdf src len dst outlen) =
        exec .kdf { s' with srcAddr := src, srcLen := len, dstAddr := dst, outLen := outlen }

/-! ### The nine commands -/

/-- DINIT, in every state (rule R142; CtxInit is rule R131). -/
def Obligations.DinitRule : Prop :=
  decode 0x00000001 = .ok .dinit ∧
    ∀ s : State, exec .dinit s = .next { s with
      dctx := { v := s.params.iv, buf := [], nblocks := 0 }, dphase := .ready, err := none }

/-- DUPDATE: its three checks in order, and its effect (rule R143). -/
def Obligations.DupdateRule : Prop :=
  decode 0x00000002 = .ok .dupdate ∧
    ∀ s : State,
      (s.dphase = .ready → s.srcAddr.toNat + s.srcLen.toNat ≤ s.params.memSize →
        msgLen s.dctx + s.srcLen.toNat ≤ 2 ^ 61 - 1 →
        exec .dupdate s = .next { s with
          dctx := absorb s.params s.dctx (s.mem.readBytes s.srcAddr.toNat s.srcLen.toNat),
          err := none }) ∧
      (s.dphase ≠ .ready →
        exec .dupdate s = .next { s with err := some .badState, errSeen := true }) ∧
      (s.dphase = .ready → s.params.memSize < s.srcAddr.toNat + s.srcLen.toNat →
        exec .dupdate s = .next { s with err := some .outOfRange, errSeen := true }) ∧
      (s.dphase = .ready → s.srcAddr.toNat + s.srcLen.toNat ≤ s.params.memSize →
        2 ^ 61 - 1 < msgLen s.dctx + s.srcLen.toNat →
        exec .dupdate s = .next { s with err := some .lengthOverflow, errSeen := true })

/-- DFINAL: its two checks in order, and its effect (rule R144; CtxZero is rule R132). -/
def Obligations.DfinalRule : Prop :=
  decode 0x00000003 = .ok .dfinal ∧
    ∀ s : State,
      (s.dphase = .ready → s.dstAddr.toNat + 32 ≤ s.params.memSize →
        exec .dfinal s = .next { s with
          mem := s.mem.writeBytes s.dstAddr.toNat (finish s.params s.dctx),
          dctx := { v := Vector.replicate 8 0, buf := [], nblocks := 0 },
          dphase := .finalized, err := none }) ∧
      (s.dphase ≠ .ready →
        exec .dfinal s = .next { s with err := some .badState, errSeen := true }) ∧
      (s.dphase = .ready → s.params.memSize < s.dstAddr.toNat + 32 →
        exec .dfinal s = .next { s with err := some .outOfRange, errSeen := true })

/-- DIGEST: its check, and its effect (rule R145). -/
def Obligations.DigestRule : Prop :=
  decode 0x00000004 = .ok .digest ∧
    ∀ s : State,
      (s.srcAddr.toNat + s.srcLen.toNat ≤ s.params.memSize →
        s.dstAddr.toNat + 32 ≤ s.params.memSize →
        exec .digest s = .next { s with
          mem := s.mem.writeBytes s.dstAddr.toNat
            (hashFn s.params (s.mem.readBytes s.srcAddr.toNat s.srcLen.toNat)),
          err := none }) ∧
      (s.params.memSize < s.srcAddr.toNat + s.srcLen.toNat ∨
        s.params.memSize < s.dstAddr.toNat + 32 →
        exec .digest s = .next { s with err := some .outOfRange, errSeen := true })

/-- MINIT: its check, and its effect; after it MINNER is one block on, `V = CF(IV, KEYBLOCK)`,
NBLOCKS = 1, PENDING = 0 (rule R163). -/
def Obligations.MinitRule : Prop :=
  decode 0x00000011 = .ok .minit ∧
    ∀ s : State,
      let kb := keyBlock s.params (s.mem.readBytes s.keyAddr.toNat s.keyLen.toNat)
      (s.keyAddr.toNat + s.keyLen.toNat ≤ s.params.memSize →
        exec .minit s = .next { s with
          keyblock := kb,
          minner := { v := cf s.params.ktab s.params.iv kb.toList, buf := [], nblocks := 1 },
          mphase := .ready, err := none }) ∧
      (s.params.memSize < s.keyAddr.toNat + s.keyLen.toNat →
        exec .minit s = .next { s with err := some .outOfRange, errSeen := true })

/-- MUPDATE: its three checks in order, and its effect (rule R164). -/
def Obligations.MupdateRule : Prop :=
  decode 0x00000012 = .ok .mupdate ∧
    ∀ s : State,
      (s.mphase = .ready → s.srcAddr.toNat + s.srcLen.toNat ≤ s.params.memSize →
        msgLen s.minner + s.srcLen.toNat ≤ 2 ^ 61 - 1 →
        exec .mupdate s = .next { s with
          minner := absorb s.params s.minner (s.mem.readBytes s.srcAddr.toNat s.srcLen.toNat),
          err := none }) ∧
      (s.mphase ≠ .ready →
        exec .mupdate s = .next { s with err := some .badState, errSeen := true }) ∧
      (s.mphase = .ready → s.params.memSize < s.srcAddr.toNat + s.srcLen.toNat →
        exec .mupdate s = .next { s with err := some .outOfRange, errSeen := true }) ∧
      (s.mphase = .ready → s.srcAddr.toNat + s.srcLen.toNat ≤ s.params.memSize →
        2 ^ 61 - 1 < msgLen s.minner + s.srcLen.toNat →
        exec .mupdate s = .next { s with err := some .lengthOverflow, errSeen := true })

/-- MFINAL: its two checks in order, and its effect: the inner digest, then the digest of the toggled key
block followed by it (rule R165). -/
def Obligations.MfinalRule : Prop :=
  decode 0x00000013 = .ok .mfinal ∧
    ∀ s : State,
      (s.mphase = .ready → s.dstAddr.toNat + 32 ≤ s.params.memSize →
        exec .mfinal s = .next { s with
          mem := s.mem.writeBytes s.dstAddr.toNat
            (finish s.params (absorb s.params
              (absorb s.params (ctxInit s.params) (s.keyblock.map (· ^^^ 0x6A)).toList)
              (finish s.params s.minner))),
          minner := { v := Vector.replicate 8 0, buf := [], nblocks := 0 },
          keyblock := Vector.replicate 64 0,
          mphase := .finalized, err := none }) ∧
      (s.mphase ≠ .ready →
        exec .mfinal s = .next { s with err := some .badState, errSeen := true }) ∧
      (s.mphase = .ready → s.params.memSize < s.dstAddr.toNat + 32 →
        exec .mfinal s = .next { s with err := some .outOfRange, errSeen := true })

/-- MAC: its check, and its effect: the output is `MacFn(data, key)` (rule R166). -/
def Obligations.MacRule : Prop :=
  decode 0x00000014 = .ok .mac ∧
    ∀ s : State,
      (s.srcAddr.toNat + s.srcLen.toNat ≤ s.params.memSize →
        s.keyAddr.toNat + s.keyLen.toNat ≤ s.params.memSize →
        s.dstAddr.toNat + 32 ≤ s.params.memSize →
        exec .mac s = .next { s with
          mem := s.mem.writeBytes s.dstAddr.toNat
            (macFn s.params (s.mem.readBytes s.srcAddr.toNat s.srcLen.toNat)
              (s.mem.readBytes s.keyAddr.toNat s.keyLen.toNat)),
          err := none }) ∧
      (s.params.memSize < s.srcAddr.toNat + s.srcLen.toNat ∨
        s.params.memSize < s.keyAddr.toNat + s.keyLen.toNat ∨
        s.params.memSize < s.dstAddr.toNat + 32 →
        exec .mac s = .next { s with err := some .outOfRange, errSeen := true })

/-- KDF: its two checks in order, and its effect; a length of 0 writes nothing (rule R192). -/
def Obligations.KdfRule : Prop :=
  decode 0x00000021 = .ok .kdf ∧
    ∀ s : State,
      (s.outLen.getLsbD 31 = false →
        s.srcAddr.toNat + s.srcLen.toNat ≤ s.params.memSize →
        s.dstAddr.toNat + s.outLen.toNat ≤ s.params.memSize →
        exec .kdf s = .next { s with
          mem := s.mem.writeBytes s.dstAddr.toNat
            (kdfFn s.params (s.mem.readBytes s.srcAddr.toNat s.srcLen.toNat) s.outLen.toNat),
          err := none }) ∧
      (s.outLen = 0 → s.srcAddr.toNat + s.srcLen.toNat ≤ s.params.memSize →
        s.dstAddr.toNat ≤ s.params.memSize → exec .kdf s = .next { s with err := none }) ∧
      (s.outLen.getLsbD 31 = true →
        exec .kdf s = .next { s with err := some .badLength, errSeen := true }) ∧
      (s.outLen.getLsbD 31 = false →
        s.params.memSize < s.srcAddr.toNat + s.srcLen.toNat ∨
          s.params.memSize < s.dstAddr.toNat + s.outLen.toNat →
        exec .kdf s = .next { s with err := some .outOfRange, errSeen := true })

/-! ### Errors and flags -/

/-- What an executed word leaves in ERR: the first of the causes of rules R221, R222, R224, R223 and R227,
in the priority of rule R228, and success otherwise. -/
def Obligations.ErrorCausesInPriority : Prop :=
  ∀ (w : Word) (s : State), ∃ t : State, execute w s = .next t ∧
    t.err =
      if w ∉ ([0x01, 0x02, 0x03, 0x04, 0x11, 0x12, 0x13, 0x14, 0x21] : List Word) then
        some .illegalCommand
      else if (w = 0x02 ∨ w = 0x03) ∧ s.dphase ≠ .ready ∨
          (w = 0x12 ∨ w = 0x13) ∧ s.mphase ≠ .ready then
        some .badState
      else if w = 0x21 ∧ s.outLen.getLsbD 31 = true then
        some .badLength
      else if w ∈ ([0x02, 0x04, 0x12, 0x14, 0x21] : List Word) ∧
            s.params.memSize < s.srcAddr.toNat + s.srcLen.toNat ∨
          w ∈ ([0x11, 0x14] : List Word) ∧
            s.params.memSize < s.keyAddr.toNat + s.keyLen.toNat ∨
          w ∈ ([0x03, 0x04, 0x13, 0x14] : List Word) ∧
            s.params.memSize < s.dstAddr.toNat + 32 ∨
          w = 0x21 ∧ s.params.memSize < s.dstAddr.toNat + s.outLen.toNat then
        some .outOfRange
      else if w = 0x02 ∧ 2 ^ 64 ≤ (msgLen s.dctx + s.srcLen.toNat) * 8 ∨
          w = 0x12 ∧ 2 ^ 64 ≤ (msgLen s.minner + s.srcLen.toNat) * 8 then
        some .lengthOverflow
      else none

/-- Errors are precise: after a command that ends in an error the state is what it was, but for ERR and
ERRSEEN (rule R225). -/
def Obligations.ErrorsArePrecise : Prop :=
  ∀ (w : Word) (s t : State) (e : ErrorCode), execute w s = .next t → t.err = some e →
    t = { s with err := some e, errSeen := true }

/-- ERR and ERRSEEN: every command writes ERR, and a failing one sets ERRSEEN; no other host step but
reset changes either, and only reset clears ERRSEEN (rule R39). -/
def Obligations.FlagsRule : Prop :=
  (∀ (w : Word) (s t : State), execute w s = .next t →
    (t.err = none ∧ t.errSeen = s.errSeen) ∨ (t.err ≠ none ∧ t.errSeen = true)) ∧
  (∀ (s t : State) (h : HostStep) (rest : List HostStep), s.host = h :: rest → quietStep h = true →
    step s = .next t → t.err = s.err ∧ t.errSeen = s.errSeen) ∧
  ∀ s t : State, step s = .next t → s.errSeen = true → t.errSeen = false →
    ∃ rest, s.host = .reset :: rest

/-- Every command answers a next state in every state: no command faults, refuses or blocks
(60_exceptions.md section 3). -/
def Obligations.EveryCommandCompletes : Prop :=
  ∀ (i : Instr) (s : State), ∃ t : State, exec i s = .next t

/-- The machine goes on but for two kinds of host access: a register access that is not admitted, and a
MEM access at or above MEM_SIZE (44_host_access.md, host accesses). -/
def Obligations.OnlyHostAccessesAreRefused : Prop :=
  ∀ s : State,
    (∃ t : State, step s = .next t) ∨
    (∃ off width rest, (s.host = .readReg off width :: rest ∨
        ∃ v, s.host = .writeReg off width v :: rest) ∧
      ¬(width = 32 ∧ off % 4 = 0 ∧ off < 0x100) ∧
      step s = .refused (.registerAccessNotAdmitted off width)) ∨
    (∃ a rest, (s.host = .readMem a :: rest ∨ ∃ b, s.host = .writeMem a b :: rest) ∧
      s.params.memSize ≤ a ∧ step s = .refused (.hostMemAccessOutside a))

/-! ### Frames and isolation -/

/-- No command writes the argument registers: only a host write to an argument register and reset
change one (rule R31). -/
def Obligations.ArgumentRegistersAreTheHosts : Prop :=
  (∀ (i : Instr) (s t : State), exec i s = .next t → sameArguments s t) ∧
  ∀ s t : State, step s = .next t → ¬sameArguments s t →
    (∃ off v rest, off ∈ [0x08, 0x0C, 0x10, 0x14, 0x18, 0x1C] ∧
      s.host = .writeReg off 32 v :: rest) ∨
    ∃ rest, s.host = .reset :: rest

/-- No command changes the parameters, the host's steps to come, what its reads returned, or the position
(10_state.md sections 1 and 4). -/
def Obligations.CommandsLeaveTheSurroundings : Prop :=
  ∀ (i : Instr) (s t : State), exec i s = .next t →
    t.params = s.params ∧ t.host = s.host ∧ t.replies = s.replies ∧ t.cmdCount = s.cmdCount

/-- A successful command writes exactly its output range at DST_ADDR, of the length `outputLength` gives,
and a failing command writes no MEM byte (rule R61). -/
def Obligations.CommandsWriteTheirOutputRangeOnly : Prop :=
  ∀ (i : Instr) (s t : State), exec i s = .next t →
    (∀ a : Nat, a < s.dstAddr.toNat ∨ s.dstAddr.toNat + outputLength i s ≤ a →
      t.mem.read a = s.mem.read a) ∧
    (t.err ≠ none → t.mem = s.mem) ∧
    (i ∈ [Instr.dinit, .dupdate, .minit, .mupdate] → t.mem = s.mem) ∧
    (t.err = none → i ∈ [Instr.dfinal, .digest, .mfinal, .mac] →
      ∃ out : Bytes, out.length = 32 ∧ t.mem = s.mem.writeBytes s.dstAddr.toNat out) ∧
    (t.err = none → i = .kdf →
      ∃ out : Bytes, out.length = s.outLen.toNat ∧ t.mem = s.mem.writeBytes s.dstAddr.toNat out)

/-- Every read comes before any write: whatever the overlap of the ranges, MEM afterwards holds in the
output range the output computed from the input bytes as they stood (rule R60). -/
def Obligations.OutputsAreOfTheInputsAsTheyStood : Prop :=
  ∀ s t : State, s.mem.wf = true → t.err = none →
    (exec .digest s = .next t →
      t.mem.readBytes s.dstAddr.toNat 32 =
        hashFn s.params (s.mem.readBytes s.srcAddr.toNat s.srcLen.toNat)) ∧
    (exec .mac s = .next t →
      t.mem.readBytes s.dstAddr.toNat 32 =
        macFn s.params (s.mem.readBytes s.srcAddr.toNat s.srcLen.toNat)
          (s.mem.readBytes s.keyAddr.toNat s.keyLen.toNat)) ∧
    (exec .kdf s = .next t →
      t.mem.readBytes s.dstAddr.toNat s.outLen.toNat =
        kdfFn s.params (s.mem.readBytes s.srcAddr.toNat s.srcLen.toNat) s.outLen.toNat) ∧
    (exec .dfinal s = .next t →
      t.mem.readBytes s.dstAddr.toNat 32 = finish s.params s.dctx) ∧
    (exec .mfinal s = .next t →
      t.mem.readBytes s.dstAddr.toNat 32 = macFinish s.params s.minner s.keyblock)

/-- Only DINIT, DUPDATE and DFINAL read or write DCTX and DPHASE: any other command runs the same with any
other context there, and leaves it (rule R33). -/
def Obligations.OnlyDigestStreamingTouchesDctx : Prop :=
  ∀ (i : Instr) (s t : State) (ph : Phase) (c : Ctx), i ∉ [Instr.dinit, .dupdate, .dfinal] →
    exec i s = .next t →
    t.dphase = s.dphase ∧ t.dctx = s.dctx ∧
      exec i { s with dphase := ph, dctx := c } = .next { t with dphase := ph, dctx := c }

/-- Only MINIT, MUPDATE and MFINAL read or write MCTX and MPHASE: any other command runs the same with any
other MAC context there, and leaves it (10_state.md section 3). -/
def Obligations.OnlyMacStreamingTouchesMctx : Prop :=
  ∀ (i : Instr) (s t : State) (ph : Phase) (c : Ctx) (kb : Vector Byte 64),
    i ∉ [Instr.minit, .mupdate, .mfinal] → exec i s = .next t →
    t.mphase = s.mphase ∧ t.minner = s.minner ∧ t.keyblock = s.keyblock ∧
      exec i { s with mphase := ph, minner := c, keyblock := kb } =
        .next { t with mphase := ph, minner := c, keyblock := kb }

/-- A command reads its operand registers as they stand, and a register that rule R73 does not list for
it has no effect on it (rule R75). -/
def Obligations.UnlistedRegistersHaveNoEffect : Prop :=
  ∀ (i : Instr) (s t : State) (off : Nat) (v : Word),
    off ∈ [0x08, 0x0C, 0x10, 0x14, 0x18, 0x1C] → off ∉ operandOffsets i →
    exec i s = .next t → exec i (setReg s off v) = .next (setReg t off v)

/-- No step depends on REG_BASE or HOST_BUS_ORDER (00_scope.md section 3, 20_memory.md sections 2 and
4). -/
def Obligations.PlatformParametersHaveNoEffect : Prop :=
  ∀ (s t : State) (base : Nat) (order : ByteOrder), step s = .next t →
    step { s with params := { s.params with regBase := base, hostBusOrder := order } } =
      .next { t with params := { t.params with regBase := base, hostBusOrder := order } }

/-- DPHASE changes only as the table of rule R141 says, and BAD_STATE leaves DPHASE and DCTX. -/
def Obligations.DigestPhaseTable : Prop :=
  ∀ (i : Instr) (s t : State), exec i s = .next t →
    (i = .dinit → t.dphase = .ready) ∧
    (i = .dupdate → s.dphase = .ready → t.dphase = .ready) ∧
    (i = .dfinal → s.dphase = .ready → t.err = none → t.dphase = .finalized) ∧
    (i = .dfinal → s.dphase = .ready → t.err ≠ none → t.dphase = .ready) ∧
    (i ∈ [Instr.dupdate, .dfinal] → s.dphase ≠ .ready →
      t.err = some .badState ∧ t.dphase = s.dphase ∧ t.dctx = s.dctx) ∧
    (i ∉ [Instr.dinit, .dupdate, .dfinal] → t.dphase = s.dphase)

/-- MPHASE changes only as the table of rule R167 says, and BAD_STATE leaves MPHASE and MCTX. -/
def Obligations.MacPhaseTable : Prop :=
  ∀ (i : Instr) (s t : State), exec i s = .next t →
    (i = .minit → t.err = none → t.mphase = .ready) ∧
    (i = .minit → t.err ≠ none → t.mphase = s.mphase) ∧
    (i = .mupdate → s.mphase = .ready → t.mphase = .ready) ∧
    (i = .mfinal → s.mphase = .ready → t.err = none → t.mphase = .finalized) ∧
    (i = .mfinal → s.mphase = .ready → t.err ≠ none → t.mphase = .ready) ∧
    (i ∈ [Instr.mupdate, .mfinal] → s.mphase ≠ .ready →
      t.err = some .badState ∧ t.mphase = s.mphase ∧ t.minner = s.minner ∧
        t.keyblock = s.keyblock) ∧
    (i ∉ [Instr.minit, .mupdate, .mfinal] → t.mphase = s.mphase)

/-- A context whose phase is not READY is read by no command, so the values the spec gives it at reset are
not observable: with any other value there a command does the same, and makes the context READY only by
overwriting it (10_state.md section 6, 70_reset_and_hazards.md section 1). -/
def Obligations.UnreadyContextsAreNotRead : Prop :=
  ∀ (i : Instr) (s t : State) (c : Ctx) (kb : Vector Byte 64), exec i s = .next t →
    (s.dphase ≠ .ready →
      (t.dphase = .ready → exec i { s with dctx := c } = .next t) ∧
      (t.dphase ≠ .ready → exec i { s with dctx := c } = .next { t with dctx := c })) ∧
    (s.mphase ≠ .ready →
      (t.mphase = .ready → exec i { s with minner := c, keyblock := kb } = .next t) ∧
      (t.mphase ≠ .ready →
        exec i { s with minner := c, keyblock := kb } =
          .next { t with minner := c, keyblock := kb }))

/-! ### Invariants -/

/-- The invariant holds at reset and at every launch with legal parameters and a canonical MEM inside
MEM_SIZE. It takes in the model's canonical form of MEM: notes/assumptions/3.md (10_state.md section 6,
20_memory.md section 1). -/
def Obligations.InvariantHoldsAtLaunch : Prop :=
  MachineInv State.reset ∧ HoldsMessages State.reset ∧
    ∀ (p : Params) (m : Memory) (steps : List HostStep),
      p.wellFormed = true → m.wf = true → m.below p.memSize = true →
      MachineInv (State.launch p m steps) ∧ HoldsMessages (State.launch p m steps)

/-- Every step keeps the invariant: MEM stays canonical and inside MEM_SIZE, PENDING stays below 64, a
READY context stays within the length limit, a context that is not READY is zero, and an error in ERR
has set ERRSEEN. The canonical form is the model's: notes/assumptions/3.md (10_state.md sections 3 and 4,
41_digest.md section 1). -/
def Obligations.StepKeepsInvariant : Prop :=
  ∀ s t : State, MachineInv s → step s = .next t → MachineInv t

/-- Every step keeps what a READY context stands for: DCTX holds some message within the length limit in
the sense of the stream law, and MINNER holds the key block that KEYBLOCK stores followed by some data
(10_state.md section 3, 41_digest.md section 1, 42_mac.md section 2). -/
def Obligations.StepKeepsContextMessages : Prop :=
  ∀ s t : State, MachineInv s → HoldsMessages s → step s = .next t → HoldsMessages t

/-- The length limit: LenOK is MsgLen + n ≤ 2^61 − 1, and under the invariant a READY context has
NBLOCKS < 2^55, so that NBLOCKS never wraps (41_digest.md section 1). -/
def Obligations.LengthLimitBoundsNblocks : Prop :=
  (∀ (c : Ctx) (n : Nat), lenOK c n = true ↔ msgLen c + n ≤ 2 ^ 61 - 1) ∧
  (∀ c : Ctx, msgBits c = 8 * msgLen c) ∧
  ∀ s : State, MachineInv s →
    (s.dphase = .ready → s.dctx.nblocks.toNat < 2 ^ 55) ∧
    (s.mphase = .ready → s.minner.nblocks.toNat < 2 ^ 55)

/-! ### The codec and the compression core -/

/-- The codec primitives are inverse to each other, and writeBE32 changes its four bytes alone
(40_datapath.md section 1). -/
def Obligations.CodecRoundTrip : Prop :=
  (∀ v : Word, readBE32 (be32 v) 0 = v) ∧
  ∀ (s : Bytes) (o : Nat) (v : Word), o + 4 ≤ s.length →
    be32 (readBE32 s o) = (s.drop o).take 4 ∧
    readBE32 (writeBE32 s o v) o = v ∧
    writeBE32 s o v = s.take o ++ be32 v ++ s.drop (o + 4)

/-- The expanded words of a block: 68 of them, the first 16 loaded from the block, each later one by the
recurrence (rules R104 and R105). -/
def Obligations.ExpansionRecurrence : Prop :=
  ∀ blk : Bytes,
    (expandWords blk).length = 68 ∧
    (∀ i : Nat, i ≤ 15 → wordAt (expandWords blk) i = readBE32 blk (4 * i)) ∧
    ∀ j : Nat, 16 ≤ j → j ≤ 67 →
      wordAt (expandWords blk) j =
        p1 (wordAt (expandWords blk) (j - 16) ^^^ wordAt (expandWords blk) (j - 9) ^^^
            rotl (wordAt (expandWords blk) (j - 3)) 15) ^^^
          rotl (wordAt (expandWords blk) (j - 13)) 7 ^^^ wordAt (expandWords blk) (j - 6)

/-- The default round constants are the rotations of rule R103's two words, a general-knowledge table of
the spec (40_datapath.md section 2, notes/assumptions/2.md). -/
def Obligations.DefaultRoundConstants : Prop :=
  ∀ j : Fin 64, defaultKtab[j] =
    rotl (if j.val ≤ 15 then 0x79CC4519 else 0x7A879D8A) (j.val % 32)

/-- GG1 takes each bit from y where x has a 1 and from z where x has a 0 (40_datapath.md section 3). -/
def Obligations.BooleanFunctionSelectsBits : Prop :=
  ∀ (j : Nat) (x y z : Word), 16 ≤ j → gg j x y z = (x &&& y) ||| (~~~x &&& z)

/-! ### The digest -/

/-- Absorb in blocks is Absorb byte by byte (41_digest.md section 1, the byte-serial form). -/
def Obligations.AbsorbIsByteSerial : Prop :=
  ∀ (p : Params) (c : Ctx) (data : Bytes), c.pending < 64 →
    absorb p c data = data.foldl (absorbByte p) c

/-- The stream law of the functions: the context after any chunks holds their concatenation, and finishing
it gives the one-shot digest of the concatenation (41_digest.md section 1, stream law). -/
def Obligations.StreamingEqualsOneShot : Prop :=
  ∀ (p : Params) (chunks : List Bytes), chunks.flatten.length ≤ 2 ^ 61 - 1 →
    CtxHolds p (chunks.foldl (absorb p) (ctxInit p)) chunks.flatten ∧
    finish p (chunks.foldl (absorb p) (ctxInit p)) = hashFn p chunks.flatten

/-- The stream law of the commands: DINIT makes DCTX hold the empty message, DUPDATE appends its input to
the message DCTX holds, and DFINAL writes the one-shot digest of the message DCTX holds (41_digest.md
sections 1 and 3). -/
def Obligations.DigestCommandsStream : Prop :=
  ∀ (s : State) (m : Bytes),
    (∃ t : State, exec .dinit s = .next t ∧ t.dphase = .ready ∧ CtxHolds t.params t.dctx []) ∧
    (s.dphase = .ready → CtxHolds s.params s.dctx m →
      s.srcAddr.toNat + s.srcLen.toNat ≤ s.params.memSize →
      m.length + s.srcLen.toNat ≤ 2 ^ 61 - 1 →
      ∃ t : State, exec .dupdate s = .next t ∧ t.dphase = .ready ∧ t.err = none ∧
        CtxHolds t.params t.dctx (m ++ s.mem.readBytes s.srcAddr.toNat s.srcLen.toNat)) ∧
    (s.dphase = .ready → CtxHolds s.params s.dctx m → m.length ≤ 2 ^ 61 - 1 →
      s.dstAddr.toNat + 32 ≤ s.params.memSize →
      ∃ t : State, exec .dfinal s = .next t ∧ t.dphase = .finalized ∧ t.err = none ∧
        t.mem = s.mem.writeBytes s.dstAddr.toNat (hashFn s.params m))

/-- The padding law: the digest of m is the serialised fold of m, the marker, the zeros up to eight bytes
short of a block boundary, and the 64-bit bit length; the padded message is one block longer than the
whole blocks of m when the rest has at most 55 bytes, and two blocks longer otherwise (41_digest.md
section 1, padding law). -/
def Obligations.DigestIsOfThePaddedMessage : Prop :=
  ∀ (p : Params) (m : Bytes), m.length ≤ 2 ^ 61 - 1 →
    let k := (55 + 64 - m.length % 64) % 64
    let padded := m ++ [0x80] ++ zeros k ++ be64 (BitVec.ofNat 64 (8 * m.length))
    padded.length = 64 * (m.length / 64 + if m.length % 64 ≤ 55 then 1 else 2) ∧
    hashFn p m = serialise (cfn p.ktab (padded.length / 64) p.iv padded)

/-- The source's two words for the length field are the first-principles field whenever NBLOCKS < 2^55
(41_digest.md section 1, 90_conflicts.md C3). -/
def Obligations.LengthFieldFormsAgree : Prop :=
  ∀ c : Ctx, c.nblocks.toNat < 2 ^ 55 → c.pending < 64 →
    be64 (BitVec.ofNat 64 (msgBits c)) =
      be32 (BitVec.ofNat 32 (c.nblocks.toNat >>> 23)) ++
        be32 (BitVec.ofNat 32 ((c.nblocks.toNat <<< 9) + (c.pending <<< 3)))

/-! ### The MAC -/

/-- The key block: the key right-padded with zeros, or its digest right-padded with zeros when the key has
more than 64 bytes, each byte XORed with 0x36 (rule R161). -/
def Obligations.KeyBlockForms : Prop :=
  ∀ (p : Params) (key : Bytes),
    (key.length ≤ 64 → (k0 p key).toList = key ++ zeros (64 - key.length)) ∧
    (64 < key.length → (k0 p key).toList = hashFn p key ++ zeros 32) ∧
    (keyBlock p key).toList = (k0 p key).toList.map (· ^^^ 0x36)

/-- The toggle of a stored key block is its outer-pad form, and toggling twice gives it back
(42_mac.md section 1). -/
def Obligations.ToggleGivesTheOuterPad : Prop :=
  ∀ (p : Params) (key : Bytes) (kb : Vector Byte 64),
    toggle (keyBlock p key) = (k0 p key).map (· ^^^ 0x5C) ∧ toggle (toggle kb) = kb

/-- The one-shot MAC, run as MINIT, MUPDATE and MFINAL on a private context, is the nested-digest formula
(42_mac.md section 1). -/
def Obligations.MacIsTheNestedDigest : Prop :=
  ∀ (p : Params) (data key : Bytes),
    macOneShot p data key =
      hashFn p (((k0 p key).map (· ^^^ 0x5C)).toList ++
        hashFn p (((k0 p key).map (· ^^^ 0x36)).toList ++ data))

/-- The MAC stream law of the commands: MINIT makes MCTX hold the key's block and no data, MUPDATE appends
its input to the data, and MFINAL writes `MacFn(data, key)` (42_mac.md sections 2 and 4). -/
def Obligations.MacCommandsStream : Prop :=
  ∀ (s : State) (key data : Bytes),
    (s.keyAddr.toNat + s.keyLen.toNat ≤ s.params.memSize →
      ∃ t : State, exec .minit s = .next t ∧ t.mphase = .ready ∧ t.err = none ∧
        t.keyblock = keyBlock s.params (s.mem.readBytes s.keyAddr.toNat s.keyLen.toNat) ∧
        CtxHolds t.params t.minner t.keyblock.toList) ∧
    (s.mphase = .ready → s.keyblock = keyBlock s.params key →
      CtxHolds s.params s.minner (s.keyblock.toList ++ data) →
      s.srcAddr.toNat + s.srcLen.toNat ≤ s.params.memSize →
      64 + data.length + s.srcLen.toNat ≤ 2 ^ 61 - 1 →
      ∃ t : State, exec .mupdate s = .next t ∧ t.mphase = .ready ∧ t.err = none ∧
        t.keyblock = s.keyblock ∧
        CtxHolds t.params t.minner
          (s.keyblock.toList ++ (data ++ s.mem.readBytes s.srcAddr.toNat s.srcLen.toNat))) ∧
    (s.mphase = .ready → s.keyblock = keyBlock s.params key →
      CtxHolds s.params s.minner (s.keyblock.toList ++ data) →
      64 + data.length ≤ 2 ^ 61 - 1 → s.dstAddr.toNat + 32 ≤ s.params.memSize →
      ∃ t : State, exec .mfinal s = .next t ∧ t.mphase = .finalized ∧ t.err = none ∧
        t.mem = s.mem.writeBytes s.dstAddr.toNat (macFn s.params data key))

/-- A short key and the same key with zero bytes appended, up to 64 bytes, have one key block and give one
MAC (42_mac.md section 4, 90_conflicts.md C5). -/
def Obligations.ZeroExtendedKeysGiveEqualMacs : Prop :=
  ∀ (p : Params) (key data : Bytes) (n : Nat), key.length + n ≤ 64 →
    keyBlock p (key ++ zeros n) = keyBlock p key ∧
    macFn p data (key ++ zeros n) = macFn p data key

/-! ### The KDF -/

/-- The KDF laws: the stream has the requested length, a shorter request is the start of a longer one, and
the bytes 32(c − 1) to 32c − 1 are those of `Hash(s ‖ BE32(c))` as far as they are below n (43_kdf.md,
KDF laws). -/
def Obligations.KeyStreamLaws : Prop :=
  ∀ (p : Params) (secret : Bytes) (n n' : Nat), n ≤ n' → n' ≤ 2 ^ 31 - 1 →
    (kdfFn p secret n).length = n ∧
    kdfFn p secret n = (kdfFn p secret n').take n ∧
    ∀ c : Nat, 1 ≤ c → 32 * (c - 1) < n →
      ((kdfFn p secret n).drop (32 * (c - 1))).take 32 =
        (hashFn p (secret ++ be32 (BitVec.ofNat 32 c))).take (n - 32 * (c - 1))

/-- From reset with MEM_SIZE ≥ 32, a CMD write of DIGEST with no other register write succeeds, writes the
digest of the empty message at address 0 and leaves STATUS 0; a CMD write of DFINAL raises BAD_STATE and
leaves STATUS 0x00000280 (70_reset_and_hazards.md section 2). -/
def Obligations.FirstCommandAfterReset : Prop :=
  ∀ (p : Params) (m : Memory) (rest : List HostStep), 32 ≤ p.memSize →
    (∃ t : State, step (State.launch p m (.writeReg 0x00 32 0x00000004 :: rest)) = .next t ∧
      t.mem = m.writeBytes 0 (hashFn p []) ∧ t.status = 0x00000000) ∧
    ∃ t : State, step (State.launch p m (.writeReg 0x00 32 0x00000003 :: rest)) = .next t ∧
      t.mem = m ∧ t.status = 0x00000280
end

