-- ==== Sys2Proof/Laws/Context.lean ====
section
/-! SUPPORT. The laws of the context functions: what `absorb` does in closed form, its composition over
chunks, and the lengths of outputs (spec/40_datapath.md rule R111, spec/41_digest.md rules R135, R136). -/

namespace Sys2Proof.Machine

/-! ### The multi-block form -/

/-- Folding a + b blocks is folding a and then b. -/
theorem cfn_add (k : Vector Word 64) (a b : Nat) (v : Vector Word 8) (s : Bytes) :
    cfn k (a + b) v s = cfn k b (cfn k a v s) (s.drop (64 * a)) := by
  induction a generalizing v s with
  | zero => simp [cfn]
  | succ a ih =>
    rw [Nat.succ_add, cfn, cfn, ih, List.drop_drop, blockBytes]
    congr 2
    omega

/-- Folding n blocks reads the first 64·n bytes alone. -/
theorem cfn_append_right (k : Vector Word 64) (n : Nat) (v : Vector Word 8) {s : Bytes} (t : Bytes)
    (h : 64 * n ≤ s.length) : cfn k n v (s ++ t) = cfn k n v s := by
  induction n generalizing v s with
  | zero => rfl
  | succ n ih =>
    rw [cfn, cfn, blockBytes, List.take_append_of_le_length (by omega),
      List.drop_append_of_le_length (by omega)]
    exact ih _ (by simp; omega)

/-! ### Absorb -/

/-- The block loop in closed form. -/
theorem absorbBlocks_eq (p : Params) (n : Nat) (c : Ctx) (data : Bytes) :
    absorbBlocks p n c data =
      { v := cfn p.ktab n c.v data, buf := data.drop (64 * n),
        nblocks := c.nblocks + BitVec.ofNat 64 n } := by
  induction n generalizing c data with
  | zero => simp [absorbBlocks, cfn]
  | succ n ih =>
    rw [absorbBlocks, ih]
    simp only [foldBlock, cfn, blockBytes, List.drop_drop, Ctx.mk.injEq, true_and]
    refine ⟨by congr 1; omega, ?_⟩
    rw [BitVec.add_assoc]
    congr 1
    rw [Nat.add_comm n 1, BitVec.ofNat_add]
    rfl

/-- Absorb in closed form, when fewer than 64 bytes are pending: the pending bytes and the data are one
sequence, whose whole blocks are folded and whose rest is pending. -/
theorem absorb_eq (p : Params) {c : Ctx} (data : Bytes) (h : c.pending < 64) :
    absorb p c data =
      { v := cfn p.ktab ((c.buf ++ data).length / 64) c.v (c.buf ++ data),
        buf := (c.buf ++ data).drop (64 * ((c.buf ++ data).length / 64)),
        nblocks := c.nblocks + BitVec.ofNat 64 ((c.buf ++ data).length / 64) } := by
  obtain ⟨v, buf, nb⟩ := c
  simp only [Ctx.pending] at h
  unfold absorb
  split
  · rename_i h0
    change buf.length > 0 at h0
    simp only [blockBytes]
    change (if (buf ++ data.take (min (64 - buf.length) data.length)).length < 64 then
      (⟨v, buf ++ data.take (min (64 - buf.length) data.length), nb⟩ : Ctx) else
      absorbBlocks p ((data.length - min (64 - buf.length) data.length) / 64)
        (foldBlock p ⟨v, buf, nb⟩ (buf ++ data.take (min (64 - buf.length) data.length)))
        (data.drop (min (64 - buf.length) data.length))) = _
    by_cases hs : (buf ++ data).length < 64
    · have hd : data.take (min (64 - buf.length) data.length) = data := by
        apply List.take_of_length_le
        simp only [List.length_append] at hs
        omega
      rw [hd, if_pos hs, Nat.div_eq_of_lt hs]
      simp [cfn]
    · simp only [List.length_append, Nat.not_lt] at hs
      have ht : min (64 - buf.length) data.length = 64 - buf.length := by omega
      rw [ht, if_neg (by simp; omega), absorbBlocks_eq]
      have hq : (buf ++ data).length / 64 = 1 + (data.length - (64 - buf.length)) / 64 := by
        simp only [List.length_append]; omega
      have htake : (buf ++ data).take 64 = buf ++ data.take (64 - buf.length) := by
        rw [List.take_append, List.take_of_length_le (by omega)]
      have hdrop : (buf ++ data).drop 64 = data.drop (64 - buf.length) := by
        rw [List.drop_append, List.drop_of_length_le (by omega), List.nil_append]
      rw [hq, Nat.mul_add, ← List.drop_drop, Nat.mul_one, hdrop, BitVec.ofNat_add, ← BitVec.add_assoc,
        cfn_add]
      simp only [foldBlock, cfn, blockBytes, htake, hdrop, Nat.mul_one]
      rfl
  · rename_i h0
    have hb : buf = [] := List.length_eq_zero_iff.1 (Nat.eq_zero_of_not_pos h0)
    subst hb
    rw [absorbBlocks_eq]
    simp [blockBytes]

/-- After Absorb fewer than 64 bytes are pending (rule R135, R140). -/
theorem absorb_pending_lt (p : Params) {c : Ctx} (data : Bytes) (h : c.pending < 64) :
    (absorb p c data).pending < 64 := by
  rw [absorb_eq p data h]
  simp only [Ctx.pending, List.length_drop]
  omega

/-- Absorbing two chunks is absorbing their concatenation. -/
theorem absorb_absorb (p : Params) {c : Ctx} (d1 d2 : Bytes) (h : c.pending < 64) :
    absorb p (absorb p c d1) d2 = absorb p c (d1 ++ d2) := by
  rw [absorb_eq p d2 (absorb_pending_lt p d1 h), absorb_eq p d1 h, absorb_eq p (d1 ++ d2) h]
  generalize hs : c.buf ++ d1 = s
  rw [← List.append_assoc, hs]
  have hle : 64 * (s.length / 64) ≤ s.length := by omega
  have hdrop : s.drop (64 * (s.length / 64)) ++ d2 = (s ++ d2).drop (64 * (s.length / 64)) := by
    rw [List.drop_append_of_le_length hle]
  have hq : (s ++ d2).length / 64 =
      s.length / 64 + ((s ++ d2).drop (64 * (s.length / 64))).length / 64 := by
    simp only [List.length_drop, List.length_append]; omega
  simp only [hdrop]
  rw [Ctx.mk.injEq]
  refine ⟨?_, ?_, ?_⟩
  · conv_rhs => rw [hq, cfn_add, cfn_append_right _ _ _ _ hle]
  · rw [List.drop_drop]
    congr 1
    omega
  · rw [BitVec.add_assoc, ← BitVec.ofNat_add, ← hq]

/-- The message length grows by the length of the data, within the length limit (rules R133, R134). -/
theorem absorb_msgLen (p : Params) {c : Ctx} (data : Bytes) (h : c.pending < 64)
    (hlen : lenOK c data.length = true) : msgLen (absorb p c data) = msgLen c + data.length := by
  rw [absorb_eq p data h]
  simp only [lenOK, msgLen, Ctx.pending] at hlen h ⊢
  have hlen := of_decide_eq_true hlen
  simp only [List.length_drop, List.length_append, BitVec.toNat_add, BitVec.toNat_ofNat]
  omega

theorem ctxInit_pending (p : Params) : (ctxInit p).pending = 0 := rfl

theorem ctxZero_pending : ctxZero.pending = 0 := rfl

/-! ### What a context holds -/

/-- A context holds m exactly when it is the one that Absorb of m gives, for an m of fewer than 2^64
blocks. -/
theorem ctxHolds_iff (p : Params) (c : Ctx) (m : Bytes) (hm : m.length / 64 < 2 ^ 64) :
    CtxHolds p c m ↔ c = absorb p (ctxInit p) m := by
  obtain ⟨v, buf, nb⟩ := c
  rw [absorb_eq p m (by simp [ctxInit_pending])]
  simp only [ctxInit, List.nil_append, Ctx.mk.injEq]
  constructor
  · rintro ⟨h1, h2, h3⟩
    refine ⟨h3, h2, ?_⟩
    apply BitVec.eq_of_toNat_eq
    simp only [BitVec.toNat_add, BitVec.toNat_ofNat, BitVec.ofNat_eq_ofNat, Nat.zero_mod, Nat.zero_add]
    simp only at h1
    omega
  · rintro ⟨h1, h2, h3⟩
    refine ⟨?_, h2, h1⟩
    simp only [h3, BitVec.toNat_add, BitVec.toNat_ofNat, BitVec.ofNat_eq_ofNat]
    omega

/-! ### Lengths -/

@[simp] theorem be32_length (v : Word) : (be32 v).length = 4 := rfl

@[simp] theorem be64_length (v : BitVec 64) : (be64 v).length = 8 := rfl

@[simp] theorem zeros_length (n : Nat) : (zeros n).length = n := by simp [zeros]

@[simp] theorem serialise_length (v : Vector Word 8) : (serialise v).length = 32 := by
  simp [serialise, List.length_flatMap]

@[simp] theorem finish_length (p : Params) (c : Ctx) : (finish p c).length = 32 := by
  simp only [finish]
  split <;> exact serialise_length _

@[simp] theorem hashFn_length (p : Params) (m : Bytes) : (hashFn p m).length = 32 := finish_length _ _

@[simp] theorem macFinish_length (p : Params) (c : Ctx) (kb : Vector Byte 64) :
    (macFinish p c kb).length = 32 := finish_length _ _

@[simp] theorem macOneShot_length (p : Params) (data key : Bytes) :
    (macOneShot p data key).length = 32 := macFinish_length _ _ _

@[simp] theorem kdfBlock_length (p : Params) (secret : Bytes) (c : Nat) :
    (kdfBlock p secret c).length = 32 := hashFn_length _ _

@[simp] theorem kdfBlocks_length (p : Params) (secret : Bytes) (n : Nat) :
    (kdfBlocks p secret n).length = 32 * n := by
  simp [kdfBlocks, List.length_flatMap, Nat.mul_comm]

/-- The key stream has the requested length. -/
@[simp] theorem kdfFn_length (p : Params) (secret : Bytes) (n : Nat) :
    (kdfFn p secret n).length = n := by
  simp only [kdfFn, List.length_take, kdfBlocks_length, digestBytes]
  omega

/-- The bytes of a padded block. -/
theorem padTo64_toList {bs : Bytes} (h : bs.length ≤ 64) :
    (padTo64 bs).toList = bs ++ zeros (64 - bs.length) := by
  apply List.ext_getElem
  · simp; omega
  · intro i h1 h2
    simp only [padTo64, Vector.getElem_toList, Vector.getElem_ofFn, List.getElem_append, zeros]
    split
    · rename_i hi; simp [hi]
    · rename_i hi; simp [List.getElem?_eq_none (Nat.le_of_not_lt hi)]

end Sys2Proof.Machine
end

