-- ==== Sys2Proof/Laws/Memory.lean ====
section
/-! SUPPORT. The laws of MEM: the canonical form is kept by every operation, a read after a write gives
the byte written, and a write leaves every other address alone (spec/20_memory.md rules R52, R61). -/

namespace Sys2Proof.Machine

/-! ### The canonical form -/

theorem memory_wf_nil : Memory.wf [] = true := rfl

theorem memory_wf_cons {a : Nat} {b : Byte} {m : Memory} :
    Memory.wf ((a, b) :: m) = true ↔
      b ≠ Memory.unlisted ∧ (∀ cell ∈ m, a < cell.1) ∧ Memory.wf m = true := by
  simp [Memory.wf, List.all_eq_true, and_assoc]

theorem memory_below_iff {size : Nat} {m : Memory} :
    m.below size = true ↔ ∀ cell ∈ m, cell.1 < size := by
  simp [Memory.below, List.all_eq_true]

/-- An address below every listed one reads as an unlisted address does. -/
theorem memory_read_of_lt {m : Memory} {a : Nat} (h : ∀ cell ∈ m, a < cell.1) :
    m.read a = Memory.unlisted := by
  induction m with
  | nil => rfl
  | cons cell m ih =>
    obtain ⟨k, c⟩ := cell
    have hk : a < k := h (k, c) (by simp)
    simp only [Memory.read, if_neg (Nat.ne_of_gt hk)]
    exact ih fun x hx => h x (by simp [hx])

/-- The cells of a write are the old ones and the written one. -/
theorem memory_mem_write {m : Memory} {a : Nat} {b : Byte} {cell : Host.Cell}
    (h : cell ∈ m.write a b) : cell ∈ m ∨ cell = (a, b) := by
  induction m with
  | nil =>
    simp only [Memory.write, Memory.cons] at h
    split at h
    · simp at h
    · simp_all
  | cons hd m ih =>
    obtain ⟨k, c⟩ := hd
    simp only [Memory.write, Memory.cons] at h
    split at h
    · split at h
      · exact .inl h
      · simp only [List.mem_cons] at h ⊢; tauto
    · split at h
      · split at h
        · exact .inl (by simp [h])
        · simp only [List.mem_cons] at h ⊢; tauto
      · simp only [List.mem_cons] at h ⊢
        rcases h with h | h
        · exact .inl (.inl h)
        · rcases ih h with h | h
          · exact .inl (.inr h)
          · exact .inr h

/-- A write keeps the canonical form. -/
theorem memory_write_wf {m : Memory} (h : m.wf = true) (a : Nat) (b : Byte) :
    (m.write a b).wf = true := by
  induction m with
  | nil =>
    simp only [Memory.write, Memory.cons]
    split
    · rfl
    · rw [memory_wf_cons]; simp_all [Memory.wf]
  | cons hd m ih =>
    obtain ⟨k, c⟩ := hd
    obtain ⟨hc, hlt, hm⟩ := memory_wf_cons.1 h
    simp only [Memory.write, Memory.cons]
    split
    · rename_i hak
      split
      · exact h
      · rename_i hb
        refine memory_wf_cons.2 ⟨hb, ?_, h⟩
        intro cell hcell
        rcases List.mem_cons.1 hcell with rfl | hcell
        · exact hak
        · exact Nat.lt_trans hak (hlt cell hcell)
    · split
      · rename_i hak
        subst hak
        split
        · exact hm
        · rename_i hb
          exact memory_wf_cons.2 ⟨hb, hlt, hm⟩
      · refine memory_wf_cons.2 ⟨hc, ?_, ih hm⟩
        intro cell hcell
        rcases memory_mem_write hcell with hcell | rfl
        · exact hlt cell hcell
        · simp; omega

/-- A write to an address of MEM keeps every listed address below MEM_SIZE. -/
theorem memory_write_below {m : Memory} {size : Nat} (h : m.below size = true) {a : Nat}
    (ha : a < size) (b : Byte) : (m.write a b).below size = true := by
  rw [memory_below_iff] at h ⊢
  intro cell hcell
  rcases memory_mem_write hcell with hcell | rfl
  · exact h cell hcell
  · exact ha

/-! ### Reading after writing -/

/-- A write leaves every other address alone. -/
theorem memory_read_write_ne {m : Memory} {a x : Nat} (b : Byte) (hx : x ≠ a) :
    (m.write a b).read x = m.read x := by
  induction m with
  | nil =>
    simp only [Memory.write, Memory.cons]
    split
    · rfl
    · simp [Memory.read, Ne.symm hx]
  | cons hd m ih =>
    obtain ⟨k, c⟩ := hd
    simp only [Memory.write, Memory.cons]
    split
    · split
      · rfl
      · simp [Memory.read, Ne.symm hx]
    · split
      · rename_i hak
        subst hak
        split <;> simp [Memory.read, Ne.symm hx]
      · simp only [Memory.read, ih]

/-- A read after a write to the same address of a canonical MEM gives the byte written. -/
theorem memory_read_write_eq {m : Memory} (h : m.wf = true) (a : Nat) (b : Byte) :
    (m.write a b).read a = b := by
  induction m with
  | nil =>
    simp only [Memory.write, Memory.cons]
    split
    · rename_i hb; simp [Memory.read, hb]
    · simp [Memory.read]
  | cons hd m ih =>
    obtain ⟨k, c⟩ := hd
    obtain ⟨hc, hlt, hm⟩ := memory_wf_cons.1 h
    simp only [Memory.write, Memory.cons]
    split
    · rename_i hak
      split
      · rename_i hb
        rw [hb]
        refine memory_read_of_lt fun cell hcell => ?_
        rcases List.mem_cons.1 hcell with rfl | hcell
        · exact hak
        · exact Nat.lt_trans hak (hlt cell hcell)
      · simp [Memory.read]
    · split
      · rename_i hak
        subst hak
        split
        · rename_i hb
          rw [hb]
          exact memory_read_of_lt hlt
        · simp [Memory.read]
      · rename_i h1 h2
        simp only [Memory.read, if_neg (Ne.symm h2)]
        exact ih hm

/-! ### Ranges -/

theorem memory_writeBytes_wf {m : Memory} (h : m.wf = true) (a : Nat) (bs : Bytes) :
    (m.writeBytes a bs).wf = true := by
  induction bs generalizing m a with
  | nil => exact h
  | cons b bs ih => exact ih (memory_write_wf h a b) (a + 1)

theorem memory_writeBytes_below {m : Memory} {size : Nat} (h : m.below size = true) {a : Nat}
    {bs : Bytes} (ha : a + bs.length ≤ size) : (m.writeBytes a bs).below size = true := by
  induction bs generalizing m a with
  | nil => exact h
  | cons b bs ih =>
    simp only [List.length_cons] at ha
    exact ih (memory_write_below h (by omega) b) (by omega)

/-- A range write leaves every address outside the range alone. -/
theorem memory_read_writeBytes_outside {m : Memory} {a x : Nat} {bs : Bytes}
    (hx : x < a ∨ a + bs.length ≤ x) : (m.writeBytes a bs).read x = m.read x := by
  induction bs generalizing m a with
  | nil => rfl
  | cons b bs ih =>
    simp only [List.length_cons] at hx
    simp only [Memory.writeBytes]
    rw [ih (by omega), memory_read_write_ne b (by omega)]

/-- A range write puts byte i of the sequence at address a + i of a canonical MEM. -/
theorem memory_read_writeBytes_inside {m : Memory} (h : m.wf = true) {a i : Nat} {bs : Bytes}
    (hi : i < bs.length) : (m.writeBytes a bs).read (a + i) = bs[i] := by
  induction bs generalizing m a i with
  | nil => simp at hi
  | cons b bs ih =>
    simp only [Memory.writeBytes]
    cases i with
    | zero =>
      rw [memory_read_writeBytes_outside (by omega)]
      exact memory_read_write_eq h a b
    | succ i =>
      have := ih (memory_write_wf h a b) (a := a + 1) (i := i) (by simpa using hi)
      simpa [Nat.add_assoc, Nat.add_comm 1 i] using this

@[simp] theorem memory_readBytes_length (m : Memory) (a n : Nat) :
    (m.readBytes a n).length = n := by simp [Memory.readBytes]

/-- A range read depends on the bytes of its range alone. -/
theorem memory_readBytes_congr {m m' : Memory} {a n : Nat}
    (h : ∀ i, i < n → m'.read (a + i) = m.read (a + i)) :
    m'.readBytes a n = m.readBytes a n := by
  simp only [Memory.readBytes]
  exact List.map_congr_left fun i hi => h i (by simpa using hi)

end Sys2Proof.Machine
end

