-- ==== Sys2Proof/Laws/State.lean ====
section
/-! SUPPORT. One lemma per field per named update of State, true by rfl, so that no later proof unfolds
a record update. -/

namespace Sys2Proof.Machine

variable (s : State)

/-! ### writeMem -/

@[simp] theorem writeMem_params (addr : Word) (bs : Bytes) : (s.writeMem addr bs).params = s.params := rfl
@[simp] theorem writeMem_srcAddr (addr : Word) (bs : Bytes) : (s.writeMem addr bs).srcAddr = s.srcAddr := rfl
@[simp] theorem writeMem_srcLen (addr : Word) (bs : Bytes) : (s.writeMem addr bs).srcLen = s.srcLen := rfl
@[simp] theorem writeMem_keyAddr (addr : Word) (bs : Bytes) : (s.writeMem addr bs).keyAddr = s.keyAddr := rfl
@[simp] theorem writeMem_keyLen (addr : Word) (bs : Bytes) : (s.writeMem addr bs).keyLen = s.keyLen := rfl
@[simp] theorem writeMem_dstAddr (addr : Word) (bs : Bytes) : (s.writeMem addr bs).dstAddr = s.dstAddr := rfl
@[simp] theorem writeMem_outLen (addr : Word) (bs : Bytes) : (s.writeMem addr bs).outLen = s.outLen := rfl
@[simp] theorem writeMem_err (addr : Word) (bs : Bytes) : (s.writeMem addr bs).err = s.err := rfl
@[simp] theorem writeMem_errSeen (addr : Word) (bs : Bytes) : (s.writeMem addr bs).errSeen = s.errSeen := rfl
@[simp] theorem writeMem_dphase (addr : Word) (bs : Bytes) : (s.writeMem addr bs).dphase = s.dphase := rfl
@[simp] theorem writeMem_dctx (addr : Word) (bs : Bytes) : (s.writeMem addr bs).dctx = s.dctx := rfl
@[simp] theorem writeMem_mphase (addr : Word) (bs : Bytes) : (s.writeMem addr bs).mphase = s.mphase := rfl
@[simp] theorem writeMem_minner (addr : Word) (bs : Bytes) : (s.writeMem addr bs).minner = s.minner := rfl
@[simp] theorem writeMem_keyblock (addr : Word) (bs : Bytes) : (s.writeMem addr bs).keyblock = s.keyblock := rfl
@[simp] theorem writeMem_mem (addr : Word) (bs : Bytes) : (s.writeMem addr bs).mem = s.mem.writeBytes addr.toNat bs := rfl
@[simp] theorem writeMem_host (addr : Word) (bs : Bytes) : (s.writeMem addr bs).host = s.host := rfl
@[simp] theorem writeMem_replies (addr : Word) (bs : Bytes) : (s.writeMem addr bs).replies = s.replies := rfl
@[simp] theorem writeMem_cmdCount (addr : Word) (bs : Bytes) : (s.writeMem addr bs).cmdCount = s.cmdCount := rfl

/-! ### setDigest -/

@[simp] theorem setDigest_params (ph : Phase) (c : Ctx) : (s.setDigest ph c).params = s.params := rfl
@[simp] theorem setDigest_srcAddr (ph : Phase) (c : Ctx) : (s.setDigest ph c).srcAddr = s.srcAddr := rfl
@[simp] theorem setDigest_srcLen (ph : Phase) (c : Ctx) : (s.setDigest ph c).srcLen = s.srcLen := rfl
@[simp] theorem setDigest_keyAddr (ph : Phase) (c : Ctx) : (s.setDigest ph c).keyAddr = s.keyAddr := rfl
@[simp] theorem setDigest_keyLen (ph : Phase) (c : Ctx) : (s.setDigest ph c).keyLen = s.keyLen := rfl
@[simp] theorem setDigest_dstAddr (ph : Phase) (c : Ctx) : (s.setDigest ph c).dstAddr = s.dstAddr := rfl
@[simp] theorem setDigest_outLen (ph : Phase) (c : Ctx) : (s.setDigest ph c).outLen = s.outLen := rfl
@[simp] theorem setDigest_err (ph : Phase) (c : Ctx) : (s.setDigest ph c).err = s.err := rfl
@[simp] theorem setDigest_errSeen (ph : Phase) (c : Ctx) : (s.setDigest ph c).errSeen = s.errSeen := rfl
@[simp] theorem setDigest_dphase (ph : Phase) (c : Ctx) : (s.setDigest ph c).dphase = ph := rfl
@[simp] theorem setDigest_dctx (ph : Phase) (c : Ctx) : (s.setDigest ph c).dctx = c := rfl
@[simp] theorem setDigest_mphase (ph : Phase) (c : Ctx) : (s.setDigest ph c).mphase = s.mphase := rfl
@[simp] theorem setDigest_minner (ph : Phase) (c : Ctx) : (s.setDigest ph c).minner = s.minner := rfl
@[simp] theorem setDigest_keyblock (ph : Phase) (c : Ctx) : (s.setDigest ph c).keyblock = s.keyblock := rfl
@[simp] theorem setDigest_mem (ph : Phase) (c : Ctx) : (s.setDigest ph c).mem = s.mem := rfl
@[simp] theorem setDigest_host (ph : Phase) (c : Ctx) : (s.setDigest ph c).host = s.host := rfl
@[simp] theorem setDigest_replies (ph : Phase) (c : Ctx) : (s.setDigest ph c).replies = s.replies := rfl
@[simp] theorem setDigest_cmdCount (ph : Phase) (c : Ctx) : (s.setDigest ph c).cmdCount = s.cmdCount := rfl

/-! ### setMac -/

@[simp] theorem setMac_params (ph : Phase) (c : Ctx) (kb : Vector Byte 64) : (s.setMac ph c kb).params = s.params := rfl
@[simp] theorem setMac_srcAddr (ph : Phase) (c : Ctx) (kb : Vector Byte 64) : (s.setMac ph c kb).srcAddr = s.srcAddr := rfl
@[simp] theorem setMac_srcLen (ph : Phase) (c : Ctx) (kb : Vector Byte 64) : (s.setMac ph c kb).srcLen = s.srcLen := rfl
@[simp] theorem setMac_keyAddr (ph : Phase) (c : Ctx) (kb : Vector Byte 64) : (s.setMac ph c kb).keyAddr = s.keyAddr := rfl
@[simp] theorem setMac_keyLen (ph : Phase) (c : Ctx) (kb : Vector Byte 64) : (s.setMac ph c kb).keyLen = s.keyLen := rfl
@[simp] theorem setMac_dstAddr (ph : Phase) (c : Ctx) (kb : Vector Byte 64) : (s.setMac ph c kb).dstAddr = s.dstAddr := rfl
@[simp] theorem setMac_outLen (ph : Phase) (c : Ctx) (kb : Vector Byte 64) : (s.setMac ph c kb).outLen = s.outLen := rfl
@[simp] theorem setMac_err (ph : Phase) (c : Ctx) (kb : Vector Byte 64) : (s.setMac ph c kb).err = s.err := rfl
@[simp] theorem setMac_errSeen (ph : Phase) (c : Ctx) (kb : Vector Byte 64) : (s.setMac ph c kb).errSeen = s.errSeen := rfl
@[simp] theorem setMac_dphase (ph : Phase) (c : Ctx) (kb : Vector Byte 64) : (s.setMac ph c kb).dphase = s.dphase := rfl
@[simp] theorem setMac_dctx (ph : Phase) (c : Ctx) (kb : Vector Byte 64) : (s.setMac ph c kb).dctx = s.dctx := rfl
@[simp] theorem setMac_mphase (ph : Phase) (c : Ctx) (kb : Vector Byte 64) : (s.setMac ph c kb).mphase = ph := rfl
@[simp] theorem setMac_minner (ph : Phase) (c : Ctx) (kb : Vector Byte 64) : (s.setMac ph c kb).minner = c := rfl
@[simp] theorem setMac_keyblock (ph : Phase) (c : Ctx) (kb : Vector Byte 64) : (s.setMac ph c kb).keyblock = kb := rfl
@[simp] theorem setMac_mem (ph : Phase) (c : Ctx) (kb : Vector Byte 64) : (s.setMac ph c kb).mem = s.mem := rfl
@[simp] theorem setMac_host (ph : Phase) (c : Ctx) (kb : Vector Byte 64) : (s.setMac ph c kb).host = s.host := rfl
@[simp] theorem setMac_replies (ph : Phase) (c : Ctx) (kb : Vector Byte 64) : (s.setMac ph c kb).replies = s.replies := rfl
@[simp] theorem setMac_cmdCount (ph : Phase) (c : Ctx) (kb : Vector Byte 64) : (s.setMac ph c kb).cmdCount = s.cmdCount := rfl

/-! ### errorEntry -/

@[simp] theorem errorEntry_params (code : ErrorCode) : (s.errorEntry code).params = s.params := rfl
@[simp] theorem errorEntry_srcAddr (code : ErrorCode) : (s.errorEntry code).srcAddr = s.srcAddr := rfl
@[simp] theorem errorEntry_srcLen (code : ErrorCode) : (s.errorEntry code).srcLen = s.srcLen := rfl
@[simp] theorem errorEntry_keyAddr (code : ErrorCode) : (s.errorEntry code).keyAddr = s.keyAddr := rfl
@[simp] theorem errorEntry_keyLen (code : ErrorCode) : (s.errorEntry code).keyLen = s.keyLen := rfl
@[simp] theorem errorEntry_dstAddr (code : ErrorCode) : (s.errorEntry code).dstAddr = s.dstAddr := rfl
@[simp] theorem errorEntry_outLen (code : ErrorCode) : (s.errorEntry code).outLen = s.outLen := rfl
@[simp] theorem errorEntry_err (code : ErrorCode) : (s.errorEntry code).err = some code := rfl
@[simp] theorem errorEntry_errSeen (code : ErrorCode) : (s.errorEntry code).errSeen = true := rfl
@[simp] theorem errorEntry_dphase (code : ErrorCode) : (s.errorEntry code).dphase = s.dphase := rfl
@[simp] theorem errorEntry_dctx (code : ErrorCode) : (s.errorEntry code).dctx = s.dctx := rfl
@[simp] theorem errorEntry_mphase (code : ErrorCode) : (s.errorEntry code).mphase = s.mphase := rfl
@[simp] theorem errorEntry_minner (code : ErrorCode) : (s.errorEntry code).minner = s.minner := rfl
@[simp] theorem errorEntry_keyblock (code : ErrorCode) : (s.errorEntry code).keyblock = s.keyblock := rfl
@[simp] theorem errorEntry_mem (code : ErrorCode) : (s.errorEntry code).mem = s.mem := rfl
@[simp] theorem errorEntry_host (code : ErrorCode) : (s.errorEntry code).host = s.host := rfl
@[simp] theorem errorEntry_replies (code : ErrorCode) : (s.errorEntry code).replies = s.replies := rfl
@[simp] theorem errorEntry_cmdCount (code : ErrorCode) : (s.errorEntry code).cmdCount = s.cmdCount := rfl

/-! ### success -/

@[simp] theorem success_params : (s.success).params = s.params := rfl
@[simp] theorem success_srcAddr : (s.success).srcAddr = s.srcAddr := rfl
@[simp] theorem success_srcLen : (s.success).srcLen = s.srcLen := rfl
@[simp] theorem success_keyAddr : (s.success).keyAddr = s.keyAddr := rfl
@[simp] theorem success_keyLen : (s.success).keyLen = s.keyLen := rfl
@[simp] theorem success_dstAddr : (s.success).dstAddr = s.dstAddr := rfl
@[simp] theorem success_outLen : (s.success).outLen = s.outLen := rfl
@[simp] theorem success_err : (s.success).err = none := rfl
@[simp] theorem success_errSeen : (s.success).errSeen = s.errSeen := rfl
@[simp] theorem success_dphase : (s.success).dphase = s.dphase := rfl
@[simp] theorem success_dctx : (s.success).dctx = s.dctx := rfl
@[simp] theorem success_mphase : (s.success).mphase = s.mphase := rfl
@[simp] theorem success_minner : (s.success).minner = s.minner := rfl
@[simp] theorem success_keyblock : (s.success).keyblock = s.keyblock := rfl
@[simp] theorem success_mem : (s.success).mem = s.mem := rfl
@[simp] theorem success_host : (s.success).host = s.host := rfl
@[simp] theorem success_replies : (s.success).replies = s.replies := rfl
@[simp] theorem success_cmdCount : (s.success).cmdCount = s.cmdCount := rfl

/-! ### withHost -/

@[simp] theorem withHost_params (steps : List HostStep) : (s.withHost steps).params = s.params := rfl
@[simp] theorem withHost_srcAddr (steps : List HostStep) : (s.withHost steps).srcAddr = s.srcAddr := rfl
@[simp] theorem withHost_srcLen (steps : List HostStep) : (s.withHost steps).srcLen = s.srcLen := rfl
@[simp] theorem withHost_keyAddr (steps : List HostStep) : (s.withHost steps).keyAddr = s.keyAddr := rfl
@[simp] theorem withHost_keyLen (steps : List HostStep) : (s.withHost steps).keyLen = s.keyLen := rfl
@[simp] theorem withHost_dstAddr (steps : List HostStep) : (s.withHost steps).dstAddr = s.dstAddr := rfl
@[simp] theorem withHost_outLen (steps : List HostStep) : (s.withHost steps).outLen = s.outLen := rfl
@[simp] theorem withHost_err (steps : List HostStep) : (s.withHost steps).err = s.err := rfl
@[simp] theorem withHost_errSeen (steps : List HostStep) : (s.withHost steps).errSeen = s.errSeen := rfl
@[simp] theorem withHost_dphase (steps : List HostStep) : (s.withHost steps).dphase = s.dphase := rfl
@[simp] theorem withHost_dctx (steps : List HostStep) : (s.withHost steps).dctx = s.dctx := rfl
@[simp] theorem withHost_mphase (steps : List HostStep) : (s.withHost steps).mphase = s.mphase := rfl
@[simp] theorem withHost_minner (steps : List HostStep) : (s.withHost steps).minner = s.minner := rfl
@[simp] theorem withHost_keyblock (steps : List HostStep) : (s.withHost steps).keyblock = s.keyblock := rfl
@[simp] theorem withHost_mem (steps : List HostStep) : (s.withHost steps).mem = s.mem := rfl
@[simp] theorem withHost_host (steps : List HostStep) : (s.withHost steps).host = steps := rfl
@[simp] theorem withHost_replies (steps : List HostStep) : (s.withHost steps).replies = s.replies := rfl
@[simp] theorem withHost_cmdCount (steps : List HostStep) : (s.withHost steps).cmdCount = s.cmdCount := rfl

/-! ### deliver -/

@[simp] theorem deliver_params (r : Reply) : (s.deliver r).params = s.params := rfl
@[simp] theorem deliver_srcAddr (r : Reply) : (s.deliver r).srcAddr = s.srcAddr := rfl
@[simp] theorem deliver_srcLen (r : Reply) : (s.deliver r).srcLen = s.srcLen := rfl
@[simp] theorem deliver_keyAddr (r : Reply) : (s.deliver r).keyAddr = s.keyAddr := rfl
@[simp] theorem deliver_keyLen (r : Reply) : (s.deliver r).keyLen = s.keyLen := rfl
@[simp] theorem deliver_dstAddr (r : Reply) : (s.deliver r).dstAddr = s.dstAddr := rfl
@[simp] theorem deliver_outLen (r : Reply) : (s.deliver r).outLen = s.outLen := rfl
@[simp] theorem deliver_err (r : Reply) : (s.deliver r).err = s.err := rfl
@[simp] theorem deliver_errSeen (r : Reply) : (s.deliver r).errSeen = s.errSeen := rfl
@[simp] theorem deliver_dphase (r : Reply) : (s.deliver r).dphase = s.dphase := rfl
@[simp] theorem deliver_dctx (r : Reply) : (s.deliver r).dctx = s.dctx := rfl
@[simp] theorem deliver_mphase (r : Reply) : (s.deliver r).mphase = s.mphase := rfl
@[simp] theorem deliver_minner (r : Reply) : (s.deliver r).minner = s.minner := rfl
@[simp] theorem deliver_keyblock (r : Reply) : (s.deliver r).keyblock = s.keyblock := rfl
@[simp] theorem deliver_mem (r : Reply) : (s.deliver r).mem = s.mem := rfl
@[simp] theorem deliver_host (r : Reply) : (s.deliver r).host = s.host := rfl
@[simp] theorem deliver_replies (r : Reply) : (s.deliver r).replies = s.replies ++ [r] := rfl
@[simp] theorem deliver_cmdCount (r : Reply) : (s.deliver r).cmdCount = s.cmdCount := rfl

/-! ### countCommand -/

@[simp] theorem countCommand_params : (s.countCommand).params = s.params := rfl
@[simp] theorem countCommand_srcAddr : (s.countCommand).srcAddr = s.srcAddr := rfl
@[simp] theorem countCommand_srcLen : (s.countCommand).srcLen = s.srcLen := rfl
@[simp] theorem countCommand_keyAddr : (s.countCommand).keyAddr = s.keyAddr := rfl
@[simp] theorem countCommand_keyLen : (s.countCommand).keyLen = s.keyLen := rfl
@[simp] theorem countCommand_dstAddr : (s.countCommand).dstAddr = s.dstAddr := rfl
@[simp] theorem countCommand_outLen : (s.countCommand).outLen = s.outLen := rfl
@[simp] theorem countCommand_err : (s.countCommand).err = s.err := rfl
@[simp] theorem countCommand_errSeen : (s.countCommand).errSeen = s.errSeen := rfl
@[simp] theorem countCommand_dphase : (s.countCommand).dphase = s.dphase := rfl
@[simp] theorem countCommand_dctx : (s.countCommand).dctx = s.dctx := rfl
@[simp] theorem countCommand_mphase : (s.countCommand).mphase = s.mphase := rfl
@[simp] theorem countCommand_minner : (s.countCommand).minner = s.minner := rfl
@[simp] theorem countCommand_keyblock : (s.countCommand).keyblock = s.keyblock := rfl
@[simp] theorem countCommand_mem : (s.countCommand).mem = s.mem := rfl
@[simp] theorem countCommand_host : (s.countCommand).host = s.host := rfl
@[simp] theorem countCommand_replies : (s.countCommand).replies = s.replies := rfl
@[simp] theorem countCommand_cmdCount : (s.countCommand).cmdCount = s.cmdCount + 1 := rfl

/-! ### engineReset -/

@[simp] theorem engineReset_params : (s.engineReset).params = s.params := rfl
@[simp] theorem engineReset_srcAddr : (s.engineReset).srcAddr = 0 := rfl
@[simp] theorem engineReset_srcLen : (s.engineReset).srcLen = 0 := rfl
@[simp] theorem engineReset_keyAddr : (s.engineReset).keyAddr = 0 := rfl
@[simp] theorem engineReset_keyLen : (s.engineReset).keyLen = 0 := rfl
@[simp] theorem engineReset_dstAddr : (s.engineReset).dstAddr = 0 := rfl
@[simp] theorem engineReset_outLen : (s.engineReset).outLen = 0 := rfl
@[simp] theorem engineReset_err : (s.engineReset).err = none := rfl
@[simp] theorem engineReset_errSeen : (s.engineReset).errSeen = false := rfl
@[simp] theorem engineReset_dphase : (s.engineReset).dphase = .uninit := rfl
@[simp] theorem engineReset_dctx : (s.engineReset).dctx = ctxZero := rfl
@[simp] theorem engineReset_mphase : (s.engineReset).mphase = .uninit := rfl
@[simp] theorem engineReset_minner : (s.engineReset).minner = ctxZero := rfl
@[simp] theorem engineReset_keyblock : (s.engineReset).keyblock = Vector.replicate 64 0 := rfl
@[simp] theorem engineReset_mem : (s.engineReset).mem = s.mem := rfl
@[simp] theorem engineReset_host : (s.engineReset).host = s.host := rfl
@[simp] theorem engineReset_replies : (s.engineReset).replies = s.replies := rfl
@[simp] theorem engineReset_cmdCount : (s.engineReset).cmdCount = s.cmdCount := rfl

/-! ### The observation of a run -/

/-- A register read adds its value to the observation. -/
@[simp] theorem observation_deliver_reg (off : Nat) (v : Word) :
    observation (s.deliver (.reg off v)) = (s.mem, registerValues s.replies ++ [v]) := by
  simp [observation, registerValues, State.deliver, registerValue]

/-- A MEM read leaves the observation. -/
@[simp] theorem observation_deliver_mem (addr : Nat) (b : Byte) :
    observation (s.deliver (.mem addr b)) = observation s := by
  simp [observation, registerValues, State.deliver, registerValue]

/-! ### setReg: a register write reaches the argument registers only -/

@[simp] theorem setReg_params (off : Nat) (v : Word) : (setReg s off v).params = s.params := by
  unfold setReg; split <;> rfl
@[simp] theorem setReg_err (off : Nat) (v : Word) : (setReg s off v).err = s.err := by
  unfold setReg; split <;> rfl
@[simp] theorem setReg_errSeen (off : Nat) (v : Word) : (setReg s off v).errSeen = s.errSeen := by
  unfold setReg; split <;> rfl
@[simp] theorem setReg_dphase (off : Nat) (v : Word) : (setReg s off v).dphase = s.dphase := by
  unfold setReg; split <;> rfl
@[simp] theorem setReg_dctx (off : Nat) (v : Word) : (setReg s off v).dctx = s.dctx := by
  unfold setReg; split <;> rfl
@[simp] theorem setReg_mphase (off : Nat) (v : Word) : (setReg s off v).mphase = s.mphase := by
  unfold setReg; split <;> rfl
@[simp] theorem setReg_minner (off : Nat) (v : Word) : (setReg s off v).minner = s.minner := by
  unfold setReg; split <;> rfl
@[simp] theorem setReg_keyblock (off : Nat) (v : Word) : (setReg s off v).keyblock = s.keyblock := by
  unfold setReg; split <;> rfl
@[simp] theorem setReg_mem (off : Nat) (v : Word) : (setReg s off v).mem = s.mem := by
  unfold setReg; split <;> rfl
@[simp] theorem setReg_host (off : Nat) (v : Word) : (setReg s off v).host = s.host := by
  unfold setReg; split <;> rfl
@[simp] theorem setReg_replies (off : Nat) (v : Word) : (setReg s off v).replies = s.replies := by
  unfold setReg; split <;> rfl
@[simp] theorem setReg_cmdCount (off : Nat) (v : Word) : (setReg s off v).cmdCount = s.cmdCount := by
  unfold setReg; split <;> rfl

/-! ### The operands depend on the registers and MEM alone -/

@[simp] theorem errorEntry_status_pending (code : ErrorCode) :
    (s.errorEntry code).dctx.pending = s.dctx.pending ∧
      (s.errorEntry code).minner.pending = s.minner.pending := ⟨rfl, rfl⟩

/-- Setting a context to what it is changes nothing. -/
@[simp] theorem setDigest_self : s.setDigest s.dphase s.dctx = s := rfl

/-- Setting the MAC context to what it is changes nothing. -/
@[simp] theorem setMac_self : s.setMac s.mphase s.minner s.keyblock = s := rfl

/-- The reset event puts the engine where launch puts it (rules R43, R250, R251). -/
theorem launch_engineReset (p : Params) (m : Memory) (steps : List HostStep) :
    (State.launch p m steps).engineReset = State.launch p m steps := rfl

end Sys2Proof.Machine
end

