-- ==== Sys2Proof/Laws/Command.lean ====
section
/-! SUPPORT. Once for each shared operation of a command, all that it can do: the check phase, the run of
a command, the dispatcher, and the host's steps. -/

namespace Sys2Proof.Machine

/-! ### The check phase and the run of a command -/

/-- No check fails exactly when every condition holds. -/
theorem firstFailing_eq_none {cs : List Check} :
    firstFailing cs = none ↔ ∀ c ∈ cs, c.1 = true := by
  induction cs with
  | nil => simp [firstFailing]
  | cons c cs ih =>
    obtain ⟨ok, code⟩ := c
    cases ok <;> simp [firstFailing, ih]

/-- The error raised is that of a check that fails. -/
theorem firstFailing_eq_some {cs : List Check} {e : ErrorCode} (h : firstFailing cs = some e) :
    (false, e) ∈ cs := by
  induction cs with
  | nil => simp [firstFailing] at h
  | cons c cs ih =>
    obtain ⟨ok, code⟩ := c
    cases ok <;> simp_all [firstFailing]

/-- A command ends in its error entry or in its effect and the success rule, and in nothing else. -/
theorem runCommand_next_iff {cs : List Check} {f : State → State} {s t : State} :
    runCommand cs f s = .next t ↔
      (∃ e, firstFailing cs = some e ∧ t = s.errorEntry e) ∨
        (firstFailing cs = none ∧ t = (f s).success) := by
  unfold runCommand
  split <;> rename_i h <;> simp [h, eq_comm]

/-- Every command answers a next state. -/
theorem runCommand_next (cs : List Check) (f : State → State) (s : State) :
    ∃ t, runCommand cs f s = .next t := by
  unfold runCommand
  split <;> exact ⟨_, rfl⟩

/-! ### The dispatcher -/

/-- The check phase of each command. -/
def checksOf (i : Instr) (s : State) : List Check :=
  match i with
  | .dinit => []
  | .dupdate =>
    [(s.dphase == .ready, .badState), (s.srcInRange, .outOfRange),
     (lenOK s.dctx s.srcLen.toNat, .lengthOverflow)]
  | .dfinal => [(s.dphase == .ready, .badState), (s.dstInRange digestBytes, .outOfRange)]
  | .digest => [(s.srcInRange && s.dstInRange digestBytes, .outOfRange)]
  | .minit => [(s.keyInRange, .outOfRange)]
  | .mupdate =>
    [(s.mphase == .ready, .badState), (s.srcInRange, .outOfRange),
     (lenOK s.minner s.srcLen.toNat, .lengthOverflow)]
  | .mfinal => [(s.mphase == .ready, .badState), (s.dstInRange digestBytes, .outOfRange)]
  | .mac => [(s.srcInRange && s.keyInRange && s.dstInRange digestBytes, .outOfRange)]
  | .kdf => [(s.outLengthLegal, .badLength), (s.srcInRange && s.dstInRange s.outCount, .outOfRange)]

/-- The effect phase of each command. -/
def effectOf (i : Instr) (s : State) : State :=
  match i with
  | .dinit => s.setDigest .ready (ctxInit s.params)
  | .dupdate => s.setDigest .ready (absorb s.params s.dctx s.srcBytes)
  | .dfinal => (s.writeMem s.dstAddr (finish s.params s.dctx)).setDigest .finalized ctxZero
  | .digest => s.writeMem s.dstAddr (hashFn s.params s.srcBytes)
  | .minit =>
    s.setMac .ready (macInner s.params (keyBlock s.params s.keyBytes)) (keyBlock s.params s.keyBytes)
  | .mupdate => s.setMac .ready (absorb s.params s.minner s.srcBytes) s.keyblock
  | .mfinal =>
    (s.writeMem s.dstAddr (macFinish s.params s.minner s.keyblock)).setMac .finalized ctxZero
      (Vector.replicate 64 0)
  | .mac => s.writeMem s.dstAddr (macOneShot s.params s.srcBytes s.keyBytes)
  | .kdf => s.writeMem s.dstAddr (kdfFn s.params s.srcBytes s.outCount)

/-- Every command is its check phase and its effect phase. -/
theorem exec_eq_runCommand (i : Instr) (s : State) :
    exec i s = runCommand (checksOf i s) (effectOf i) s := by
  cases i <;> rfl

/-- All that a command can do: its error entry, or its effect and the success rule. -/
theorem exec_next_iff {i : Instr} {s t : State} :
    exec i s = .next t ↔
      (∃ e, firstFailing (checksOf i s) = some e ∧ t = s.errorEntry e) ∨
        (firstFailing (checksOf i s) = none ∧ t = (effectOf i s).success) := by
  rw [exec_eq_runCommand, runCommand_next_iff]

/-- A command whose check phase fails takes the error entry of the first failing check. -/
theorem exec_of_failing {i : Instr} {s : State} {e : ErrorCode}
    (h : firstFailing (checksOf i s) = some e) : exec i s = .next (s.errorEntry e) :=
  exec_next_iff.2 (.inl ⟨e, h, rfl⟩)

/-- A command whose checks all pass takes its effect and the success rule. -/
theorem exec_of_passing {i : Instr} {s : State} (h : firstFailing (checksOf i s) = none) :
    exec i s = .next (effectOf i s).success :=
  exec_next_iff.2 (.inr ⟨h, rfl⟩)

/-! ### The conditions of the checks -/

theorem inRange_iff {size : Nat} {a : Word} {n : Nat} :
    inRange size a n = true ↔ a.toNat + n ≤ size := by simp [inRange]

@[simp] theorem srcInRange_iff {s : State} :
    s.srcInRange = true ↔ s.srcAddr.toNat + s.srcLen.toNat ≤ s.params.memSize := inRange_iff

@[simp] theorem keyInRange_iff {s : State} :
    s.keyInRange = true ↔ s.keyAddr.toNat + s.keyLen.toNat ≤ s.params.memSize := inRange_iff

@[simp] theorem dstInRange_iff {s : State} {n : Nat} :
    s.dstInRange n = true ↔ s.dstAddr.toNat + n ≤ s.params.memSize := inRange_iff

theorem lenOK_iff_bits {c : Ctx} {n : Nat} :
    lenOK c n = true ↔ (msgLen c + n) * 8 < 2 ^ 64 := decide_eq_true_iff

/-- OUT_LEN is not negative exactly when its bit 31 is 0, and is then its unsigned value. -/
theorem outLengthLegal_iff {s : State} : s.outLengthLegal = true ↔ s.outLen.toNat < 2 ^ 31 := by
  rw [State.outLengthLegal, decide_eq_true_iff, State.outLength, BitVec.toInt_eq_toNat_cond]
  have := s.outLen.isLt
  split <;> omega

theorem outCount_eq {s : State} (h : s.outLengthLegal = true) : s.outCount = s.outLen.toNat := by
  have h := outLengthLegal_iff.1 h
  simp only [State.outCount, State.outLength]
  rw [BitVec.toInt_eq_toNat_of_lt (by omega)]
  rfl

/-- The toggle is one XOR of every byte with 0x6A (42_mac.md rule R162). -/
theorem toggle_eq (kb : Vector Byte 64) : toggle kb = kb.map (· ^^^ 0x6A) := rfl

/-! ### The host's steps -/

/-- All that an executed word can do. -/
theorem execute_cases {w : Word} {s : State} {o : Host.Outcome State Fault Refusal}
    (h : execute w s = o) :
    (∃ e, decode w = .error e ∧ o = .next (s.errorEntry .illegalCommand)) ∨
      (∃ i, decode w = .ok i ∧ o = exec i s) := by
  unfold execute at h
  split at h <;> rename_i hd
  · exact .inl ⟨_, hd, h.symm⟩
  · exact .inr ⟨_, hd, h.symm⟩

/-- All that a host step that goes on can do. -/
theorem hostStep_next {h : HostStep} {s t : State} (ht : hostStep h s = .next t) :
    (∃ off, h = .readReg off 32 ∧ t = s.deliver (.reg off (readReg s off))) ∨
    (∃ v, h = .writeReg 0 32 v ∧ execute v s.countCommand = .next t) ∨
    (∃ off v, h = .writeReg off 32 v ∧ off ≠ 0 ∧ t = setReg s off v) ∨
    (∃ a, h = .readMem a ∧ a < s.params.memSize ∧ t = s.deliver (.mem a (s.mem.read a))) ∨
    (∃ a b, h = .writeMem a b ∧ a < s.params.memSize ∧ t = { s with mem := s.mem.write a b }) ∨
    (h = .reset ∧ t = s.engineReset) := by
  cases h with
  | readReg off width =>
    simp only [hostStep] at ht
    split at ht
    · rename_i ha
      simp only [admittedAccess, Bool.and_eq_true, decide_eq_true_eq] at ha
      obtain ⟨⟨rfl, -⟩, -⟩ := ha
      exact .inl ⟨off, rfl, by simpa using ht.symm⟩
    · cases ht
  | writeReg off width v =>
    simp only [hostStep] at ht
    split at ht
    · rename_i ha
      simp only [admittedAccess, Bool.and_eq_true, decide_eq_true_eq] at ha
      obtain ⟨⟨rfl, -⟩, -⟩ := ha
      unfold writeReg at ht
      split at ht
      · rename_i h0
        subst h0
        exact .inr (.inl ⟨v, rfl, ht⟩)
      · rename_i h0
        exact .inr (.inr (.inl ⟨off, v, rfl, h0, by simpa using ht.symm⟩))
    · cases ht
  | readMem a =>
    simp only [hostStep] at ht
    split at ht
    · rename_i ha
      exact .inr (.inr (.inr (.inl ⟨a, rfl, ha, by simpa using ht.symm⟩)))
    · cases ht
  | writeMem a b =>
    simp only [hostStep] at ht
    split at ht
    · rename_i ha
      exact .inr (.inr (.inr (.inr (.inl ⟨a, b, rfl, ha, by simpa using ht.symm⟩))))
    · cases ht
  | reset =>
    simp only [hostStep] at ht
    exact .inr (.inr (.inr (.inr (.inr ⟨rfl, by simpa using ht.symm⟩))))

/-- A step with no host step to come leaves the machine as it is. -/
theorem step_idle {s : State} (h : s.host = []) : step s = .next s := by
  simp [step, nextStep, h]

/-- A step with a host step to come performs it, taken off the stream. -/
theorem step_host {s : State} {h : HostStep} {rest : List HostStep} (hs : s.host = h :: rest) :
    step s = hostStep h (s.withHost rest) := by
  simp [step, nextStep, hs]

/-! ### Runs -/

/-- A run whose first step goes on is the rest of the run. -/
theorem runSteps_succ {n : Nat} {s t : State} (h : step s = .next t) :
    runSteps (n + 1) s = runSteps n t := by
  simp [runSteps, h]

/-- A run of one step is the step. -/
theorem runSteps_one (s : State) : runSteps 1 s = step s := by
  simp only [runSteps]
  cases step s <;> rfl

end Sys2Proof.Machine
end

