-- ==== Sys2Proof/Laws/PerInstr.lean ====
section
/-! SUPPORT. The families of statements made once per command: one lemma for each constructor of Instr. -/

namespace Sys2Proof.Laws

/-- The command is well-formed, its word is a word of the format CMDW, and the word decodes to the command
(spec/30_encoding.md rules R70, R71, R73). -/
def EncodeDecode.Statement (i : Instr) : Prop :=
  i.wellFormed = true ∧ wellFormedWord (encode i) = true ∧ decode (encode i) = .ok i

theorem EncodeDecode.dinit : EncodeDecode.Statement .dinit := ⟨rfl, by decide, by decide⟩

theorem EncodeDecode.dupdate : EncodeDecode.Statement .dupdate := ⟨rfl, by decide, by decide⟩

theorem EncodeDecode.dfinal : EncodeDecode.Statement .dfinal := ⟨rfl, by decide, by decide⟩

theorem EncodeDecode.digest : EncodeDecode.Statement .digest := ⟨rfl, by decide, by decide⟩

theorem EncodeDecode.minit : EncodeDecode.Statement .minit := ⟨rfl, by decide, by decide⟩

theorem EncodeDecode.mupdate : EncodeDecode.Statement .mupdate := ⟨rfl, by decide, by decide⟩

theorem EncodeDecode.mfinal : EncodeDecode.Statement .mfinal := ⟨rfl, by decide, by decide⟩

theorem EncodeDecode.mac : EncodeDecode.Statement .mac := ⟨rfl, by decide, by decide⟩

theorem EncodeDecode.kdf : EncodeDecode.Statement .kdf := ⟨rfl, by decide, by decide⟩

end Sys2Proof.Laws
end

