-- ==== Sys2Proof/Tests/Slice0.lean ====
section
/-! SUPPORT. Tests. Expected values are those of spec/95_test_vectors.md (cited by section), of the encoding
table of spec/30_encoding.md rule R73, and of the worked examples in the command rules. The witness theorems
at the end show, for each statement with hypotheses, a concrete state and operands that meet them. -/

namespace Sys2Proof.Tests

open Sys2Proof Sys2Proof.Machine

/-! ### Helpers -/

/-- The next state of an outcome. -/
def okState : Host.Outcome State Fault Refusal → Option State
  | .next t => some t
  | .fault _ => none
  | .refused _ => none

/-- The refusal of an outcome. -/
def refusalOf : Host.Outcome State Fault Refusal → Option Refusal
  | .next _ => none
  | .fault _ => none
  | .refused r => some r

/-- STATUS after a step. -/
def statusOf (o : Host.Outcome State Fault Refusal) : Option Word := (okState o).map State.status

/-- The bytes at an address after a step. -/
def bytesOf (o : Host.Outcome State Fault Refusal) (a n : Nat) : Option Bytes :=
  (okState o).map fun t => t.mem.readBytes a n

/-- The bytes of big-endian words, as the spec's tables print them. -/
def hexBytes (ws : List Word) : Bytes := ws.flatMap be32

/-- The text "abc" in ASCII. -/
def abc : Bytes := [0x61, 0x62, 0x63]

/-- The text "key" in ASCII. -/
def keyText : Bytes := [0x6B, 0x65, 0x79]

/-- The message `m_n`: the bytes 0, 1, ..., n - 1. -/
def mBytes (n : Nat) : Bytes := (List.range n).map (BitVec.ofNat 8)

/-- From reset, with "abc" at 0x100 and "key" at 0x300. -/
def s0 : State := State.launch defaultParams
  ((Memory.writeBytes [] 0x100 abc).writeBytes 0x300 keyText) []

/-- The same, with host steps to come. -/
def withSteps (steps : List HostStep) : State := { s0 with host := steps }

/-- The same, with the six argument registers set. -/
def withArgs (src len key klen dst outlen : Word) (s : State) : State :=
  { s with srcAddr := src, srcLen := len, keyAddr := key, keyLen := klen, dstAddr := dst,
           outLen := outlen }

/-- DCTX initialised. -/
def sDigest : State := { s0 with dphase := .ready, dctx := ctxInit defaultParams }

/-- DCTX after "abc". -/
def sDigestAbc : State :=
  { s0 with dphase := .ready, dctx := { v := defaultIv, buf := abc, nblocks := 0 } }

/-- DCTX after a DFINAL. -/
def sDigestDone : State := { s0 with dphase := .finalized }

/-- MCTX initialised with "key". -/
def sMac : State :=
  { s0 with
    mphase := .ready,
    minner := macInner defaultParams (keyBlock defaultParams keyText),
    keyblock := keyBlock defaultParams keyText }

/-- DCTX and MINNER READY at the length limit: NBLOCKS = 2^55 − 1 and PENDING = 63 (95 section 3.4). -/
def sLimit : State :=
  { s0 with
    dphase := .ready, dctx := { v := defaultIv, buf := zeros 63, nblocks := 0x7FFFFFFFFFFFFF },
    mphase := .ready, minner := { v := defaultIv, buf := zeros 63, nblocks := 0x7FFFFFFFFFFFFF } }

/-- DCTX READY and empty, MINNER READY with the empty key and no data. -/
def sBoth : State :=
  { s0 with
    dphase := .ready, dctx := ctxInit defaultParams,
    mphase := .ready,
    minner :=
      { v := cf defaultKtab defaultIv (List.replicate 64 0x36), buf := [], nblocks := 1 },
    keyblock := Vector.replicate 64 0x36 }

/-! ### WellFormed: each check refuses an ill-formed term -/

theorem test_wellFormed_word_refuses_reserved_bit : wellFormedWord 0x00000101 = false := by decide

theorem test_wellFormed_word_refuses_top_bit : wellFormedWord 0x80000001 = false := by decide

theorem test_wellFormed_word_refuses_unknown_op : wellFormedWord 0x00000005 = false := by decide

theorem test_wellFormed_word_accepts_kdf : wellFormedWord 0x00000021 = true := by decide

theorem test_wellFormed_access_refuses_width : admittedAccess 0x08 16 = false := by decide

theorem test_wellFormed_access_refuses_misaligned : admittedAccess 0x06 32 = false := by decide

theorem test_wellFormed_access_refuses_outside : admittedAccess 0x100 32 = false := by decide

theorem test_wellFormed_access_accepts_last : admittedAccess 0xFC 32 = true := by decide

theorem test_wellFormed_params_refuse_zero :
    { defaultParams with memSize := 0 }.wellFormed = false := by decide

theorem test_wellFormed_params_refuse_too_large :
    { defaultParams with memSize := 2 ^ 32 + 1 }.wellFormed = false := by decide

theorem test_wellFormed_params_accept_bounds :
    { defaultParams with memSize := 1 }.wellFormed = true ∧
      { defaultParams with memSize := 2 ^ 32 }.wellFormed = true := by decide

/-- A command has no field that could be ill-formed. -/
theorem test_wellFormed_commands :
    ([.dinit, .dupdate, .dfinal, .digest, .minit, .mupdate, .mfinal, .mac, .kdf] : List Instr).all
      Instr.wellFormed = true := by decide

/-- MEM's form: an entry equal to what an unlisted address reads as, and two entries out of order. -/
theorem test_memory_wf_refuses :
    Memory.wf [(5, 0)] = false ∧ Memory.wf [(5, 1), (5, 2)] = false ∧
      Memory.wf [(6, 1), (5, 2)] = false ∧ Memory.wf [(5, 1), (6, 2)] = true := by decide

/-! ### Decoding: words written out from the table of rule R73, RSV in bits 31:8 and OP in bits 7:0 -/

theorem test_decode_dinit :
    decodeTableWord 32 0b00000000000000000000000000000001 = some .dinit ∧
      encode .dinit = 0x00000001 := by decide

theorem test_decode_dupdate :
    decodeTableWord 32 0b00000000000000000000000000000010 = some .dupdate ∧
      encode .dupdate = 0x00000002 := by decide

theorem test_decode_dfinal :
    decodeTableWord 32 0b00000000000000000000000000000011 = some .dfinal ∧
      encode .dfinal = 0x00000003 := by decide

theorem test_decode_digest :
    decodeTableWord 32 0b00000000000000000000000000000100 = some .digest ∧
      encode .digest = 0x00000004 := by decide

theorem test_decode_minit :
    decodeTableWord 32 0b00000000000000000000000000010001 = some .minit ∧
      encode .minit = 0x00000011 := by decide

theorem test_decode_mupdate :
    decodeTableWord 32 0b00000000000000000000000000010010 = some .mupdate ∧
      encode .mupdate = 0x00000012 := by decide

theorem test_decode_mfinal :
    decodeTableWord 32 0b00000000000000000000000000010011 = some .mfinal ∧
      encode .mfinal = 0x00000013 := by decide

theorem test_decode_mac :
    decodeTableWord 32 0b00000000000000000000000000010100 = some .mac ∧
      encode .mac = 0x00000014 := by decide

theorem test_decode_kdf :
    decodeTableWord 32 0b00000000000000000000000000100001 = some .kdf ∧
      encode .kdf = 0x00000021 := by decide

/-- Words of both illegal sets of rule R78, at the ends of its ranges. -/
theorem test_decode_illegal :
    ([0x00, 0x05, 0x10, 0x15, 0x20, 0x22, 0xFF, 0x101, 0x102, 0x80000001, 0xFFFFFFFF] : List Nat).all
      (fun w => (decodeTableWord 32 w).isNone) = true := by decide

/-- The word is run as the first command after reset. -/
theorem test_fetch_word :
    statusOf (step (State.reset.withFetchWord 32 0x00000001)) = some 0x00000001 ∧
      statusOf (step (State.reset.withFetchWord 32 0x00000012)) = some 0x00000280 := by decide

/-! ### Codec, word functions and compression core (95 sections 2.1 to 2.3) -/

theorem test_codec :
    readBE32 [0x12, 0x34, 0x56, 0x78, 0x9A] 0 = 0x12345678 ∧
      readBE32 [0x12, 0x34, 0x56, 0x78, 0x9A] 1 = 0x3456789A ∧
      be32 0x0A0B0C0D = [0x0A, 0x0B, 0x0C, 0x0D] ∧
      be64 0x0000000100000018 = [0, 0, 0, 1, 0, 0, 0, 0x18] ∧
      writeBE32 [1, 2, 3, 4, 5, 6] 1 0x0A0B0C0D = [1, 0x0A, 0x0B, 0x0C, 0x0D, 6] := by decide

theorem test_rotl :
    rotl 0x80000001 1 = 0x00000003 ∧ rotl 0x12345678 0 = 0x12345678 ∧
      rotl 0x12345678 12 = 0x45678123 ∧ rotl 0xFFFFFFFF 7 = 0xFFFFFFFF := by decide

theorem test_permutations :
    p0 0x00000001 = 0x00020201 ∧ p0 0x80000000 = 0x80010100 ∧ p0 0x12345678 = 0xD6688234 ∧
      p1 0x00000001 = 0x00808001 ∧ p1 0x80000000 = 0x80404000 ∧ p1 0x12345678 = 0x05014549 := by
  decide

theorem test_boolean_functions :
    ff 15 0xF0F0F0F0 0xCCCCCCCC 0xAAAAAAAA = 0x96969696 ∧
      gg 15 0xF0F0F0F0 0xCCCCCCCC 0xAAAAAAAA = 0x96969696 ∧
      ff 16 0xF0F0F0F0 0xCCCCCCCC 0xAAAAAAAA = 0xE8E8E8E8 ∧
      gg 16 0xF0F0F0F0 0xCCCCCCCC 0xAAAAAAAA = 0xCACACACA := by decide

/-- The padded block of "abc". -/
def abcBlock : Bytes := abc ++ [0x80] ++ zeros 59 ++ [0x18]

theorem test_expansion :
    [16, 19, 33, 63, 67].map (wordAt (expandWords abcBlock)) =
      [0x9092E200, 0x719C70ED, 0xF8061807, 0xF07E6590, 0xB99C0545] ∧
      [0, 11, 12, 63].map (auxWord (expandWords abcBlock)) =
        [0x61626380, 0x00000018, 0x9092E200, 0x49E260D5] := by decide +kernel

theorem test_round_0 :
    roundFn defaultKtab (expandWords abcBlock) (Regs.ofChain defaultIv) 0 =
      { a := 0xB9EDC12B, b := 0x7380166F, c := 0x29657292, d := 0x172442D7,
        e := 0xB2AD29F4, f := 0xA96F30BC, g := 0xC550B189, h := 0xE38DEE4D } := by decide +kernel

theorem test_cf_zero :
    cf defaultKtab (Vector.replicate 8 0) (zeros 64) =
      #v[0x2762550F, 0x18134933, 0xBA35CE4E, 0x0A757E65, 0x8C0E7205, 0xFE9E4FF6, 0x5AC5C88B,
         0xA3649AC2] := by decide +kernel

theorem test_cf_m64 :
    (cf defaultKtab defaultIv (mBytes 64)).toList =
      [0x96A60EC7, 0x1E7EC7A7, 0x890A07DC, 0xBEF2AEA6] ++
        [0x9CF8936B, 0xD3F6D07F, 0x47597D30, 0x97DB3CCB] := by decide +kernel

/-! ### The digest functions (95 sections 1, 3.2, 3.4) -/

theorem test_hash_empty :
    hashFn defaultParams [] = hexBytes
      ([0x1AB21D83, 0x55CFA17F, 0x8E611948, 0x31E81A8F] ++
        [0x22BEC8C7, 0x28FEFB74, 0x7ED035EB, 0x5082AA2B]) := by decide +kernel

/-- 55 bytes pending: one padding block. -/
theorem test_hash_m55 :
    hashFn defaultParams (mBytes 55) = hexBytes
      ([0xA79CF9DC, 0xEE3404AB, 0xF7F76969, 0x8201647F] ++
        [0xD9D3FF61, 0xD629D0F5, 0x8BB4B557, 0x9A427DB8]) := by decide +kernel

/-- 56 bytes pending: two padding blocks. -/
theorem test_hash_m56 :
    hashFn defaultParams (mBytes 56) = hexBytes
      ([0x62F7363B, 0x15F4DE76, 0xDD925C49, 0x3B9D6D00] ++
        [0xD4BA0EF2, 0xA1F334C1, 0xD0F13B29, 0x3AEB40D1]) := by decide +kernel

/-- m_65 in the chunks of 1, 63 and 1 bytes: a chunk that fills a block exactly. -/
theorem test_stream_m65 :
    finish defaultParams (absorb defaultParams (absorb defaultParams
      (absorb defaultParams (ctxInit defaultParams) [0x00]) ((mBytes 64).drop 1)) [0x40]) = hexBytes
      ([0xC886E681, 0x4BE74828, 0x5A10B28A, 0xE62DDACD] ++
        [0x85DB830C, 0xD2CF3A2B, 0xFA2F729C, 0x15F63618]) := by decide +kernel

theorem test_length_field :
    be64 (BitVec.ofNat 64 (msgBits { v := defaultIv, buf := zeros 5, nblocks := 8388609 })) =
        [0, 0, 0, 1, 0, 0, 2, 0x28] ∧
      be64 (BitVec.ofNat 64 (msgBits sLimit.dctx)) =
        [0xFF, 0xFF, 0xFF, 0xFF, 0xFF, 0xFF, 0xFF, 0xF8] := by decide +kernel

theorem test_length_limit :
    lenOK sLimit.dctx 0 = true ∧ lenOK sLimit.dctx 1 = false ∧
      lenOK { v := defaultIv, buf := [], nblocks := 0x7FFFFFFC000000 } (2 ^ 32 - 1) = true := by
  decide +kernel

/-- The hashed-key branch: m_65 (95 section 4.1). -/
theorem test_key_block_m65 :
    ((keyBlock defaultParams (mBytes 65)).toList.take 36 = hexBytes
      ([0xFEB0D0B7, 0x7DD17E1E, 0x6C2684BC, 0xD01BECFB] ++
        [0xB3EDB53A, 0xE4F90C1D, 0xCC1944AA, 0x23C0002E, 0x36363636])) := by decide +kernel

/-! ### The commands: one step each (rules R142 to R145, R163 to R166, R192, 95 sections 3.5, 4.3, 5, 6) -/

theorem test_dinit_status :
    statusOf (exec .dinit s0) = some 0x00000001 ∧
      statusOf (exec .dinit { sDigestDone with err := some .badState, errSeen := true }) =
        some 0x00000081 := by decide

theorem test_dupdate_abc :
    statusOf (exec .dupdate (withArgs 0x100 3 0 0 0 0 sDigest)) = some 0x00030001 ∧
      (okState (exec .dupdate (withArgs 0x100 3 0 0 0 0 sDigest))).map (fun t => t.dctx.buf) =
        some [0x61, 0x62, 0x63] := by decide

/-- The top of MEM: the last byte, one byte too many, a length of 0 at MEM_SIZE and past it, and no wrap. -/
theorem test_dupdate_range :
    statusOf (exec .dupdate (withArgs 0xFFFF 1 0 0 0 0 sDigest)) = some 0x00010001 ∧
      statusOf (exec .dupdate (withArgs 0xFFFF 2 0 0 0 0 sDigest)) = some 0x00000481 ∧
      statusOf (exec .dupdate (withArgs 0x10000 0 0 0 0 0 sDigest)) = some 0x00000001 ∧
      statusOf (exec .dupdate (withArgs 0x10001 0 0 0 0 0 sDigest)) = some 0x00000481 ∧
      statusOf (exec .dupdate (withArgs 1 0xFFFFFFFF 0 0 0 0 sDigest)) = some 0x00000481 ∧
      statusOf (exec .dupdate (withArgs 0 1 0 0 0 0 sLimit)) = some 0x3F3F0585 := by decide

theorem test_dfinal_abc :
    bytesOf (exec .dfinal (withArgs 0 0 0 0 0x200 0 sDigestAbc)) 0x200 32 = some (hexBytes
      ([0x66C7F0F4, 0x62EEEDD9, 0xD1F2D46B, 0xDC10E4E2] ++
        [0x4167C487, 0x5CF2F7A2, 0x297DA02B, 0x8F4BA8E0])) := by decide +kernel

theorem test_dfinal_twice :
    statusOf (exec .dfinal (withArgs 0 0 0 0 0x200 0 sDigestDone)) = some 0x00000282 ∧
      statusOf (exec .dfinal (withArgs 0 0 0 0 0xFFE1 0 sDigest)) = some 0x00000481 := by decide

/-- The destination is the source: the input is read before it is overwritten. -/
theorem test_digest_in_place :
    bytesOf (exec .digest (withArgs 0x100 3 0 0 0x100 0 s0)) 0x100 32 = some (hexBytes
      ([0x66C7F0F4, 0x62EEEDD9, 0xD1F2D46B, 0xDC10E4E2] ++
        [0x4167C487, 0x5CF2F7A2, 0x297DA02B, 0x8F4BA8E0])) := by decide +kernel

theorem test_digest_range :
    statusOf (exec .digest (withArgs 0 0 0 0 0xFFE1 0 s0)) = some 0x00000480 := by decide

theorem test_minit_key :
    (okState (exec .minit (withArgs 0 0 0x300 3 0 0 s0))).map
        (fun t => (t.keyblock.toList.take 5, t.minner.nblocks, t.status)) =
      some ([0x5D, 0x53, 0x4F, 0x36, 0x36], 1, 0x00000004) := by decide +kernel

theorem test_minit_range :
    statusOf (exec .minit (withArgs 0 0 0xFFFE 3 0 0 s0)) = some 0x00000480 := by decide

theorem test_mupdate_abc :
    statusOf (exec .mupdate (withArgs 0x100 3 0 0 0 0 sMac)) = some 0x03000004 := by decide +kernel

theorem test_mupdate_uninit :
    statusOf (exec .mupdate (withArgs 0x100 3 0 0 0 0 s0)) = some 0x00000280 := by decide

theorem test_mfinal_empty_data :
    bytesOf (exec .mfinal (withArgs 0 0 0 0 0x200 0 sMac)) 0x200 32 = some (hexBytes
      ([0x4DEB29B9, 0xBE17BD4F, 0xD2ACA21F, 0x908885B9] ++
        [0xF849BC61, 0xE8FBD101, 0xE04FD998, 0x7528D4DF])) := by decide +kernel

theorem test_mfinal_status :
    statusOf (exec .mfinal (withArgs 0 0 0 0 0x200 0 sMac)) = some 0x00000008 ∧
      statusOf (exec .mfinal (withArgs 0 0 0 0 0x200 0 s0)) = some 0x00000280 := by decide +kernel

theorem test_mac_abc_key :
    bytesOf (exec .mac (withArgs 0x100 3 0x300 3 0x200 0 s0)) 0x200 32 = some (hexBytes
      ([0x28E63256, 0xE7C5A087, 0xB1F07326, 0x5DC53092] ++
        [0x163F7B82, 0x729735D0, 0x6F28F10A, 0xF9D52393])) := by decide +kernel

theorem test_mac_range :
    statusOf (exec .mac (withArgs 0 0 0x20000 0 0 0 s0)) = some 0x00000480 := by decide

theorem test_kdf_abc_40 :
    bytesOf (exec .kdf (withArgs 0x100 3 0 0 0x100 40 s0)) 0x100 41 = some (hexBytes
      ([0xFE1EA80D, 0xAC6F100C, 0x33537BD2, 0x4619EC7C, 0x72A1E8B1] ++
        [0xFFEAEFB1, 0xEB52A377, 0x91FDAF61, 0x9DB16C0A, 0xC7BEBB47]) ++ [0x00]) := by decide +kernel

theorem test_kdf_errors :
    statusOf (exec .kdf (withArgs 0xFFFFFFFF 5 0 0 0 0x80000000 s0)) = some 0x00000380 ∧
      statusOf (exec .kdf (withArgs 0x100 3 0 0 0xFFE0 33 s0)) = some 0x00000480 ∧
      statusOf (exec .kdf (withArgs 0x100 3 0 0 0x10000 0 s0)) = some 0x00000000 := by decide

/-! ### Host accesses, errors in sequence and reset (95 section 6) -/

theorem test_reads :
    ([0x00, 0x04, 0x08, 0x20, 0xFC].map
      (readReg { s0 with srcAddr := 0xDEADBEEF, errSeen := true, err := some .badLength })) =
      [0x00000000, 0x00000380, 0xDEADBEEF, 0x00000000, 0x00000000] := by decide

/-- A MEM read is no part of the observation, and a register read is (rule R205). -/
theorem test_observation :
    (okState (runSteps 3 (withSteps [.readMem 0x100, .readReg 0x08 32, .readMem 0x300]))).map
      observation = some (s0.mem, [0x00000000]) := by decide

theorem test_write_status_ignored :
    statusOf (step (withSteps [.writeReg 0x04 32 0xFFFFFFFF])) = some 0x00000000 := by decide

theorem test_refused_accesses :
    refusalOf (step (withSteps [.readReg 0x06 32])) = some (.registerAccessNotAdmitted 0x06 32) ∧
      refusalOf (step (withSteps [.readReg 0x04 8])) = some (.registerAccessNotAdmitted 0x04 8) ∧
      refusalOf (step (withSteps [.writeReg 0x100 32 0])) =
        some (.registerAccessNotAdmitted 0x100 32) ∧
      refusalOf (step (withSteps [.readMem 0x10000])) = some (.hostMemAccessOutside 0x10000) := by
  decide

/-- The sequence of 95 section 6: DFINAL in UNINIT, DINIT, an illegal word, DINIT, reset. -/
theorem test_error_sequence :
    statusOf (runSteps 1 (withSteps [wr 0 0x03])) = some 0x00000280 ∧
      statusOf (runSteps 2 (withSteps [wr 0 0x03, wr 0 0x01])) = some 0x00000081 ∧
      statusOf (runSteps 3 (withSteps [wr 0 0x03, wr 0 0x01, wr 0 0xAA])) = some 0x00000181 ∧
      statusOf (runSteps 4 (withSteps [wr 0 0x03, wr 0 0x01, wr 0 0xAA, .reset])) =
        some 0x00000000 := by decide

/-! ### Witnesses: a concrete state and operands for the hypotheses of each statement that has some -/

theorem test_witness_DecodeEncodeAgree :
    Instr.kdf.wellFormed = true ∧ decode 0x00000021 = .ok .kdf := by decide

/-- The ends of the ranges of illegal words. -/
theorem test_witness_WordsOutsideTheNineAreIllegal :
    (0x05 : Word) ∉ ([0x01, 0x02, 0x03, 0x04, 0x11, 0x12, 0x13, 0x14, 0x21] : List Word) ∧
    (0x22 : Word) ∉ ([0x01, 0x02, 0x03, 0x04, 0x11, 0x12, 0x13, 0x14, 0x21] : List Word) ∧
    (0x101 : Word) ∉ ([0x01, 0x02, 0x03, 0x04, 0x11, 0x12, 0x13, 0x14, 0x21] : List Word) ∧
    (0xFFFFFFFF : Word) ∉ ([0x01, 0x02, 0x03, 0x04, 0x11, 0x12, 0x13, 0x14, 0x21] : List Word) ∧
    (withSteps [.writeReg 0x00 32 0x05, .reset]).host = .writeReg 0x00 32 0x05 :: [.reset] := by
  decide

theorem test_witness_StepRunsTheDecodedCommand :
    decode 0x00000004 = .ok .digest ∧
      (withSteps [.writeReg 0x00 32 0x00000004]).host = .writeReg 0x00 32 0x00000004 :: [] := by
  decide

/-- A CMD write that ends in an error, and a step that is no CMD write. -/
theorem test_witness_PositionCountsCmdWrites :
    (okState (step (withSteps [.writeReg 0x00 32 0x02]))).map State.cmdCount = some 1 ∧
      (okState (step (withSteps [.readReg 0x00 32]))).map State.cmdCount = some 0 := by decide

theorem test_witness_IdleStepChangesNothing : State.reset.host = [] := rfl

/-- The first and last admitted offsets, and an access refused for each of the three conditions. -/
theorem test_witness_RegisterReadDeliversItsValue :
    (withSteps [.readReg 0xFC 32]).host = .readReg 0xFC 32 :: [] ∧
      (32 = 32 ∧ 0xFC % 4 = 0 ∧ 0xFC < 0x100) ∧ (32 = 32 ∧ 0 % 4 = 0 ∧ 0 < 0x100) ∧
      ¬(32 = 32 ∧ 0x100 % 4 = 0 ∧ 0x100 < 0x100) ∧ ¬(32 = 32 ∧ 0x06 % 4 = 0 ∧ 0x06 < 0x100) ∧
      ¬(16 = 32 ∧ 0x04 % 4 = 0 ∧ 0x04 < 0x100) := by decide

theorem test_witness_RegisterWriteEffects :
    (withSteps [.writeReg 0x1C 32 7]).host = .writeReg 0x1C 32 7 :: [] ∧
      (32 = 32 ∧ 0x1C % 4 = 0 ∧ 0x1C < 0x100) ∧
      (withSteps [.writeReg 0x100 32 7]).host = .writeReg 0x100 32 7 :: [] ∧
      ¬(32 = 32 ∧ 0x100 % 4 = 0 ∧ 0x100 < 0x100) := by decide

theorem test_witness_ArgumentRegistersReadBack :
    0x1C ∈ [0x08, 0x0C, 0x10, 0x14, 0x18, 0x1C] ∧
      (withSteps [.writeReg 0x1C 32 0xFFFFFFFF, .readReg 0x1C 32]).host =
        .writeReg 0x1C 32 0xFFFFFFFF :: .readReg 0x1C 32 :: [] := by decide

/-- The last address of MEM and the first one past it. -/
theorem test_witness_HostMemAccess :
    (withSteps [.readMem 0xFFFF]).host = .readMem 0xFFFF :: [] ∧ 0xFFFF < s0.params.memSize ∧
      (withSteps [.writeMem 0xFFFF 1]).host = .writeMem 0xFFFF 1 :: [] ∧ s0.mem.wf = true ∧
      (withSteps [.readMem 0x10000]).host = .readMem 0x10000 :: [] ∧
      (withSteps [.writeMem 0x10000 1]).host = .writeMem 0x10000 1 :: [] ∧
      s0.params.memSize ≤ 0x10000 := by decide

theorem test_witness_QuietHostStepsLeaveTheEngine :
    quietStep (.writeMem 0x100 9) = true ∧ quietStep (.writeReg 0x04 32 1) = true ∧
      (okState (step (withSteps [.writeMem 0x100 9]))).isSome = true ∧
      (okState (step (withSteps [.writeReg 0x04 32 1]))).isSome = true := by decide

/-- Reset of a state whose every flag and context is in use. -/
theorem test_witness_ResetEventValues :
    { sLimit with host := [.reset], errSeen := true }.host = .reset :: [] ∧
      (okState (step { sLimit with host := [.reset], errSeen := true })).map State.errSeen =
        some false := by decide

/-- PENDING at its largest value in both contexts. -/
theorem test_witness_StatusFields :
    sLimit.dctx.pending < 64 ∧ sLimit.minner.pending < 64 ∧ sLimit.dctx.pending = 63 ∧
      (withSteps [.writeReg 0x04 32 1]).host = .writeReg 0x04 32 1 :: [] := by decide

theorem test_witness_ReadsDoNotRevealTheContexts :
    { sDigestAbc.dctx with buf := [1, 2, 3] }.pending = sDigestAbc.dctx.pending ∧
      { sMac.minner with buf := [] }.pending = sMac.minner.pending := by decide +kernel

/-- READY in range at the top of MEM and at the length limit, not READY, one byte out of range, and one byte
over the length limit. -/
theorem test_witness_DupdateRule :
    ((withArgs 0xFFFF 1 0 0 0 0 sDigest).dphase = .ready ∧
      (withArgs 0xFFFF 1 0 0 0 0 sDigest).srcAddr.toNat +
        (withArgs 0xFFFF 1 0 0 0 0 sDigest).srcLen.toNat ≤ sDigest.params.memSize ∧
      msgLen sDigest.dctx + 1 ≤ 2 ^ 61 - 1) ∧
    (sLimit.dphase = .ready ∧ msgLen sLimit.dctx + (withArgs 0 0 0 0 0 0 sLimit).srcLen.toNat ≤
      2 ^ 61 - 1) ∧
    s0.dphase ≠ .ready ∧
    (withArgs 0xFFFF 2 0 0 0 0 sDigest).params.memSize <
      (withArgs 0xFFFF 2 0 0 0 0 sDigest).srcAddr.toNat +
        (withArgs 0xFFFF 2 0 0 0 0 sDigest).srcLen.toNat ∧
    2 ^ 61 - 1 < msgLen sLimit.dctx + (withArgs 0 1 0 0 0 0 sLimit).srcLen.toNat := by decide

theorem test_witness_DfinalRule :
    (sDigest.dphase = .ready ∧
      (withArgs 0 0 0 0 0xFFE0 0 sDigest).dstAddr.toNat + 32 ≤ sDigest.params.memSize) ∧
    sDigestDone.dphase ≠ .ready ∧
    sDigest.params.memSize < (withArgs 0 0 0 0 0xFFE1 0 sDigest).dstAddr.toNat + 32 := by decide

theorem test_witness_DigestRule :
    (withArgs 0x10000 0 0 0 0xFFE0 0 s0).srcAddr.toNat +
        (withArgs 0x10000 0 0 0 0xFFE0 0 s0).srcLen.toNat ≤ s0.params.memSize ∧
    (withArgs 0x10000 0 0 0 0xFFE0 0 s0).dstAddr.toNat + 32 ≤ s0.params.memSize ∧
    s0.params.memSize < (withArgs 0x10001 0 0 0 0 0 s0).srcAddr.toNat + 0 ∧
    s0.params.memSize < (withArgs 0 0 0 0 0xFFE1 0 s0).dstAddr.toNat + 32 := by decide

theorem test_witness_MinitRule :
    (withArgs 0 0 0xFFFD 3 0 0 s0).keyAddr.toNat + (withArgs 0 0 0xFFFD 3 0 0 s0).keyLen.toNat ≤
      s0.params.memSize ∧
    s0.params.memSize <
      (withArgs 0 0 0xFFFE 3 0 0 s0).keyAddr.toNat + (withArgs 0 0 0xFFFE 3 0 0 s0).keyLen.toNat := by
  decide

theorem test_witness_MupdateRule :
    ((withArgs 0xFFFF 1 0 0 0 0 sBoth).mphase = .ready ∧
      (withArgs 0xFFFF 1 0 0 0 0 sBoth).srcAddr.toNat +
        (withArgs 0xFFFF 1 0 0 0 0 sBoth).srcLen.toNat ≤ sBoth.params.memSize ∧
      msgLen sBoth.minner + 1 ≤ 2 ^ 61 - 1) ∧
    s0.mphase ≠ .ready ∧
    (sBoth.mphase = .ready ∧ sBoth.params.memSize <
      (withArgs 0xFFFF 2 0 0 0 0 sBoth).srcAddr.toNat +
        (withArgs 0xFFFF 2 0 0 0 0 sBoth).srcLen.toNat) ∧
    (sLimit.mphase = .ready ∧
      2 ^ 61 - 1 < msgLen sLimit.minner + (withArgs 0 1 0 0 0 0 sLimit).srcLen.toNat) := by decide

theorem test_witness_MfinalRule :
    (sBoth.mphase = .ready ∧
      (withArgs 0 0 0 0 0xFFE0 0 sBoth).dstAddr.toNat + 32 ≤ sBoth.params.memSize) ∧
    s0.mphase ≠ .ready ∧
    sBoth.params.memSize < (withArgs 0 0 0 0 0xFFE1 0 sBoth).dstAddr.toNat + 32 := by decide

theorem test_witness_MacRule :
    ((withArgs 0x100 3 0x300 3 0xFFE0 0 s0).srcAddr.toNat + 3 ≤ s0.params.memSize ∧
      (withArgs 0x100 3 0x300 3 0xFFE0 0 s0).keyAddr.toNat + 3 ≤ s0.params.memSize ∧
      (withArgs 0x100 3 0x300 3 0xFFE0 0 s0).dstAddr.toNat + 32 ≤ s0.params.memSize) ∧
    s0.params.memSize < (withArgs 0x10001 0 0 0 0 0 s0).srcAddr.toNat + 0 ∧
    s0.params.memSize < (withArgs 0 0 0x20000 0 0 0 s0).keyAddr.toNat + 0 ∧
    s0.params.memSize < (withArgs 0 0 0 0 0xFFE1 0 s0).dstAddr.toNat + 32 := by decide

/-- The largest length in range, a length of 0 at MEM_SIZE, the ends of the negative lengths, and one byte out
of range. -/
theorem test_witness_KdfRule :
    ((withArgs 0x100 3 0 0 0 0x10000 s0).outLen.getLsbD 31 = false ∧
      (withArgs 0x100 3 0 0 0 0x10000 s0).srcAddr.toNat + 3 ≤ s0.params.memSize ∧
      (withArgs 0x100 3 0 0 0 0x10000 s0).dstAddr.toNat +
        (withArgs 0x100 3 0 0 0 0x10000 s0).outLen.toNat ≤ s0.params.memSize) ∧
    ((withArgs 0x100 3 0 0 0x10000 0 s0).outLen = 0 ∧
      (withArgs 0x100 3 0 0 0x10000 0 s0).dstAddr.toNat ≤ s0.params.memSize) ∧
    ((withArgs 0 0 0 0 0 0x80000000 s0).outLen.getLsbD 31 = true ∧
      (withArgs 0 0 0 0 0 0xFFFFFFFF s0).outLen.getLsbD 31 = true) ∧
    ((withArgs 0 0 0 0 0 0x10001 s0).outLen.getLsbD 31 = false ∧
      s0.params.memSize < (withArgs 0 0 0 0 0 0x10001 s0).dstAddr.toNat +
        (withArgs 0 0 0 0 0 0x10001 s0).outLen.toNat) := by decide

theorem test_witness_ErrorsArePrecise :
    ∃ t : State, execute 0x00000012 s0 = .next t ∧ t.err = some .badState := ⟨_, rfl, rfl⟩

theorem test_witness_FlagsRule :
    (∃ t : State, execute 0x00000102 s0 = .next t) ∧
    (quietStep (.readReg 0x04 32) = true ∧
      ∃ t : State, step (withSteps [.readReg 0x04 32]) = .next t) ∧
    ∃ t : State, step { sLimit with host := [.reset], errSeen := true } = .next t ∧
      sLimit.params = t.params ∧ t.errSeen = false :=
  ⟨⟨_, rfl⟩, ⟨rfl, _, rfl⟩, _, rfl, rfl, rfl⟩

/-- A host write changes an argument register, and so does reset. -/
theorem test_witness_ArgumentRegistersAreTheHosts :
    (∃ t : State, exec .kdf (withArgs 0x100 3 0 0 0x200 0x80000000 s0) = .next t) ∧
    (∃ t : State, step (withSteps [.writeReg 0x10 32 5]) = .next t ∧
      ¬sameArguments (withSteps [.writeReg 0x10 32 5]) t) ∧
    ∃ t : State, step { withArgs 1 0 0 0 0 0 s0 with host := [.reset] } = .next t ∧
      ¬sameArguments { withArgs 1 0 0 0 0 0 s0 with host := [.reset] } t := by
  refine ⟨⟨_, rfl⟩, ⟨_, rfl, ?_⟩, ⟨_, rfl, ?_⟩⟩ <;> (unfold sameArguments; decide)

theorem test_witness_CommandsLeaveTheSurroundings :
    ∃ t : State, exec .digest (withArgs 0x100 3 0 0 0x200 0 s0) = .next t := ⟨_, rfl⟩

/-- The first address below and the first above the output range, for a success and for an error. -/
theorem test_witness_CommandsWriteTheirOutputRangeOnly :
    (∃ t : State, exec .digest (withArgs 0x100 3 0 0 0x200 0 s0) = .next t ∧ t.err = none) ∧
    (∃ t : State, exec .kdf (withArgs 0x100 3 0 0 0x200 40 s0) = .next t ∧ t.err = none) ∧
    (∃ t : State, exec .dinit s0 = .next t) ∧
    (∃ t : State, exec .dfinal s0 = .next t ∧ t.err ≠ none) ∧
    0x1FF < (withArgs 0x100 3 0 0 0x200 0 s0).dstAddr.toNat ∧
    (withArgs 0x100 3 0 0 0x200 0 s0).dstAddr.toNat +
      outputLength .digest (withArgs 0x100 3 0 0 0x200 0 s0) ≤ 0x220 :=
  ⟨⟨_, rfl, rfl⟩, ⟨_, rfl, rfl⟩, ⟨_, rfl⟩, ⟨_, rfl, by decide⟩, by decide, by decide⟩

/-- The output range is the input range. -/
theorem test_witness_OutputsAreOfTheInputsAsTheyStood :
    s0.mem.wf = true ∧
    (∃ t : State, exec .digest (withArgs 0x100 3 0 0 0x100 0 s0) = .next t ∧ t.err = none) ∧
    (∃ t : State, exec .mac (withArgs 0x100 3 0x300 3 0x100 0 s0) = .next t ∧ t.err = none) ∧
    (∃ t : State, exec .kdf (withArgs 0x100 3 0 0 0x100 40 s0) = .next t ∧ t.err = none) ∧
    (∃ t : State, exec .dfinal (withArgs 0 0 0 0 0x100 0 sDigestAbc) = .next t ∧ t.err = none) ∧
    ∃ t : State, exec .mfinal (withArgs 0 0 0 0 0x100 0 sMac) = .next t ∧ t.err = none :=
  ⟨by decide, ⟨_, rfl, rfl⟩, ⟨_, rfl, rfl⟩, ⟨_, rfl, rfl⟩, ⟨_, rfl, rfl⟩, ⟨_, rfl, rfl⟩⟩

theorem test_witness_OnlyDigestStreamingTouchesDctx :
    Instr.mac ∉ [Instr.dinit, .dupdate, .dfinal] ∧
      ∃ t : State, exec .mac (withArgs 0x100 3 0x300 3 0x200 0 sDigestAbc) = .next t :=
  ⟨by decide, _, rfl⟩

theorem test_witness_OnlyMacStreamingTouchesMctx :
    Instr.mac ∉ [Instr.minit, .mupdate, .mfinal] ∧
      ∃ t : State, exec .mac (withArgs 0x100 3 0x300 3 0x200 0 sMac) = .next t :=
  ⟨by decide, _, rfl⟩

theorem test_witness_UnlistedRegistersHaveNoEffect :
    0x10 ∈ [0x08, 0x0C, 0x10, 0x14, 0x18, 0x1C] ∧ 0x10 ∉ operandOffsets .kdf ∧
      ∃ t : State, exec .kdf (withArgs 0x100 3 0 0 0x200 40 s0) = .next t :=
  ⟨by decide, by decide, _, rfl⟩

theorem test_witness_PlatformParametersHaveNoEffect :
    ∃ t : State, step (withSteps [.writeReg 0x00 32 0x00000004]) = .next t := ⟨_, rfl⟩

/-- A row of the table for each of DINIT, DUPDATE and DFINAL in READY and out of it. -/
theorem test_witness_DigestPhaseTable :
    (∃ t : State, exec .dinit sDigestDone = .next t) ∧
    (sDigest.dphase = .ready ∧ ∃ t : State, exec .dupdate sDigest = .next t) ∧
    (∃ t : State, exec .dfinal sDigest = .next t ∧ t.err = none) ∧
    (∃ t : State, exec .dfinal (withArgs 0 0 0 0 0xFFE1 0 sDigest) = .next t ∧ t.err ≠ none) ∧
    (sDigestDone.dphase ≠ .ready ∧ ∃ t : State, exec .dupdate sDigestDone = .next t) ∧
    (Instr.kdf ∉ [Instr.dinit, .dupdate, .dfinal] ∧ ∃ t : State, exec .kdf sDigest = .next t) :=
  ⟨⟨_, rfl⟩, ⟨rfl, _, rfl⟩, ⟨_, rfl, rfl⟩, ⟨_, rfl, by decide⟩, ⟨by decide, _, rfl⟩,
    by decide, _, rfl⟩

theorem test_witness_MacPhaseTable :
    (∃ t : State, exec .minit s0 = .next t ∧ t.err = none) ∧
    (∃ t : State, exec .minit (withArgs 0 0 0xFFFE 3 0 0 s0) = .next t ∧ t.err ≠ none) ∧
    (sBoth.mphase = .ready ∧ ∃ t : State, exec .mupdate sBoth = .next t) ∧
    (∃ t : State, exec .mfinal sBoth = .next t ∧ t.err = none) ∧
    (∃ t : State, exec .mfinal (withArgs 0 0 0 0 0xFFE1 0 sBoth) = .next t ∧ t.err ≠ none) ∧
    (s0.mphase ≠ .ready ∧ ∃ t : State, exec .mupdate s0 = .next t) ∧
    (Instr.kdf ∉ [Instr.minit, .mupdate, .mfinal] ∧ ∃ t : State, exec .kdf sBoth = .next t) :=
  ⟨⟨_, rfl, rfl⟩, ⟨_, rfl, by decide⟩, ⟨rfl, _, rfl⟩, ⟨_, rfl, rfl⟩, ⟨_, rfl, by decide⟩,
    ⟨by decide, _, rfl⟩, by decide, _, rfl⟩

/-- A command that makes the context READY and one that leaves it, for each context. -/
theorem test_witness_UnreadyContextsAreNotRead :
    (s0.dphase ≠ .ready ∧ s0.mphase ≠ .ready) ∧
    (∃ t : State, exec .dinit s0 = .next t ∧ t.dphase = .ready) ∧
    (∃ t : State, exec .minit s0 = .next t ∧ t.mphase = .ready) ∧
    ∃ t : State, exec .digest s0 = .next t ∧ t.dphase ≠ .ready ∧ t.mphase ≠ .ready :=
  ⟨by decide, ⟨_, rfl, rfl⟩, ⟨_, rfl, rfl⟩, _, rfl, by decide, by decide⟩

theorem test_witness_InvariantHoldsAtLaunch :
    defaultParams.wellFormed = true ∧ s0.mem.wf = true ∧
      s0.mem.below defaultParams.memSize = true := by decide

/-- Both contexts READY satisfy the invariant, with a DUPDATE to come. -/
theorem test_inv_sBoth : MachineInv { sBoth with host := [.writeReg 0x00 32 0x02] } where
  params := by decide
  memCanonical := by decide
  memBelow := by decide
  dPending := by decide
  mPending := by decide
  dLength := by decide
  mLength := by decide
  dZero := by decide
  mZero := by decide
  errSticky := by decide

/-- DCTX holds the empty message, and MINNER the block of the empty key. -/
theorem test_holds_sBoth : HoldsMessages { sBoth with host := [.writeReg 0x00 32 0x02] } where
  digest := fun _ => ⟨[], by decide, ⟨by decide, by decide, by decide⟩⟩
  mac := fun _ =>
    ⟨[], [], by decide +kernel, by decide, ⟨by decide, by decide, by decide +kernel⟩⟩

theorem test_witness_StepKeepsInvariant :
    MachineInv { sBoth with host := [.writeReg 0x00 32 0x02] } ∧
      ∃ t : State, step { sBoth with host := [.writeReg 0x00 32 0x02] } = .next t :=
  ⟨test_inv_sBoth, _, rfl⟩

theorem test_witness_StepKeepsContextMessages :
    MachineInv { sBoth with host := [.writeReg 0x00 32 0x02] } ∧
      HoldsMessages { sBoth with host := [.writeReg 0x00 32 0x02] } ∧
      ∃ t : State, step { sBoth with host := [.writeReg 0x00 32 0x02] } = .next t :=
  ⟨test_inv_sBoth, test_holds_sBoth, _, rfl⟩

/-- The invariant at the length limit itself. -/
theorem test_witness_LengthLimitBoundsNblocks : MachineInv sLimit ∧
    sLimit.dphase = .ready ∧ sLimit.mphase = .ready ∧ msgLen sLimit.dctx = 2 ^ 61 - 1 :=
  ⟨⟨by decide, by decide, by decide, by decide, by decide, by decide, by decide, by decide,
    by decide, by decide⟩, rfl, rfl, by decide⟩

theorem test_witness_CodecRoundTrip : 1 + 4 ≤ ([1, 2, 3, 4, 5] : Bytes).length := by decide

theorem test_witness_ExpansionRecurrence : 16 ≤ 67 ∧ 67 ≤ 67 ∧ 16 ≤ 16 ∧ 15 ≤ 15 := by decide

theorem test_witness_BooleanFunctionSelectsBits : 16 ≤ 16 := by decide

theorem test_witness_AbsorbIsByteSerial : sLimit.dctx.pending < 64 := by decide

theorem test_witness_StreamingEqualsOneShot :
    ([abc, [], keyText] : List Bytes).flatten.length ≤ 2 ^ 61 - 1 := by decide

theorem test_witness_DigestCommandsStream :
    sBoth.dphase = .ready ∧ CtxHolds sBoth.params sBoth.dctx [] ∧
      (withArgs 0x100 3 0 0 0xFFE0 0 sBoth).srcAddr.toNat +
        (withArgs 0x100 3 0 0 0xFFE0 0 sBoth).srcLen.toNat ≤ sBoth.params.memSize ∧
      ([] : Bytes).length + (withArgs 0x100 3 0 0 0xFFE0 0 sBoth).srcLen.toNat ≤ 2 ^ 61 - 1 ∧
      (withArgs 0x100 3 0 0 0xFFE0 0 sBoth).dstAddr.toNat + 32 ≤ sBoth.params.memSize :=
  ⟨rfl, ⟨by decide, by decide, by decide⟩, by decide, by decide, by decide⟩

/-- Both clauses of the length at their boundaries: 0 and 55 bytes over whole blocks, and 56 and 63. -/
theorem test_witness_DigestIsOfThePaddedMessage :
    ([0, 55, 56, 63, 64, 119, 120].map fun n =>
      (decide ((mBytes n).length ≤ 2 ^ 61 - 1), decide ((mBytes n).length % 64 ≤ 55))) =
      [(true, true), (true, true), (true, false), (true, false), (true, true), (true, true),
       (true, false)] := by decide +kernel

theorem test_witness_LengthFieldFormsAgree :
    sLimit.dctx.nblocks.toNat < 2 ^ 55 ∧ sLimit.dctx.pending < 64 := by decide

/-- Keys of 64 bytes and of 65. -/
theorem test_witness_KeyBlockForms : (mBytes 64).length ≤ 64 ∧ 64 < (mBytes 65).length := by decide

theorem test_witness_MacCommandsStream :
    sBoth.mphase = .ready ∧ sBoth.keyblock = keyBlock sBoth.params [] ∧
      CtxHolds sBoth.params sBoth.minner (sBoth.keyblock.toList ++ []) ∧
      (withArgs 0x100 3 0x300 3 0xFFE0 0 sBoth).srcAddr.toNat + 3 ≤ sBoth.params.memSize ∧
      (withArgs 0x100 3 0x300 3 0xFFE0 0 sBoth).keyAddr.toNat + 3 ≤ sBoth.params.memSize ∧
      64 + ([] : Bytes).length + 3 ≤ 2 ^ 61 - 1 ∧
      (withArgs 0x100 3 0x300 3 0xFFE0 0 sBoth).dstAddr.toNat + 32 ≤ sBoth.params.memSize :=
  ⟨rfl, by decide +kernel, ⟨by decide, by decide, by decide +kernel⟩, by decide, by decide,
    by decide, by decide⟩

theorem test_witness_ZeroExtendedKeysGiveEqualMacs : keyText.length + 61 ≤ 64 := by decide

theorem test_witness_KeyStreamLaws :
    40 ≤ 64 ∧ 64 ≤ 2 ^ 31 - 1 ∧ 1 ≤ 2 ∧ 32 * (2 - 1) < 40 := by decide

theorem test_witness_FirstCommandAfterReset :
    32 ≤ { defaultParams with memSize := 32 }.memSize := by decide

end Sys2Proof.Tests
end

section
/-! The flags, the argument registers and DCTX (10_state.md rules R31, R33, R39): the frame of a command
first, then the frame of a host step, then the statements. -/

namespace Sys2Proof.Machine

/-! ### One step -/

/-- All that a step that goes on can do: nothing with no host step to come, else the host's next step. -/
theorem step_next_cases {s t : State} (h : step s = .next t) :
    (s.host = [] ∧ t = s) ∨
      ∃ hs rest, s.host = hs :: rest ∧ hostStep hs (s.withHost rest) = .next t := by
  cases hhost : s.host with
  | nil =>
    rw [step_idle hhost] at h
    exact .inl ⟨rfl, by simpa using h.symm⟩
  | cons hs rest => exact .inr ⟨hs, rest, rfl, step_host hhost ▸ h⟩

/-! ### The flags -/

/-- No effect phase writes ERRSEEN: only the error entry does. -/
@[simp] theorem effectOf_errSeen (i : Instr) (s : State) : (effectOf i s).errSeen = s.errSeen := by
  cases i <;> rfl

theorem exec_flags {i : Instr} {s t : State} (h : exec i s = .next t) :
    (t.err = none ∧ t.errSeen = s.errSeen) ∨ (t.err ≠ none ∧ t.errSeen = true) := by
  obtain ⟨e, -, rfl⟩ | ⟨-, rfl⟩ := exec_next_iff.1 h
  · exact .inr (by simp)
  · exact .inl (by simp)

theorem execute_flags {w : Word} {s t : State} (h : execute w s = .next t) :
    (t.err = none ∧ t.errSeen = s.errSeen) ∨ (t.err ≠ none ∧ t.errSeen = true) := by
  obtain ⟨_, -, ht⟩ | ⟨i, -, ht⟩ := execute_cases h
  · cases ht
    exact .inr (by simp)
  · exact exec_flags ht.symm

/-- ERRSEEN is sticky over an executed word. -/
theorem execute_keeps_errSeen {w : Word} {s t : State} (h : execute w s = .next t)
    (hs : s.errSeen = true) : t.errSeen = true := by
  obtain ⟨-, hseen⟩ | ⟨-, hseen⟩ := execute_flags h
  · rw [hseen, hs]
  · exact hseen

/-- A host step that neither executes a word nor resets leaves both flags. -/
theorem quietStep_flags {h : HostStep} {s t : State} (hq : quietStep h = true)
    (ht : hostStep h s = .next t) : t.err = s.err ∧ t.errSeen = s.errSeen := by
  obtain ⟨off, rfl, rfl⟩ | ⟨v, rfl, -⟩ | ⟨off, v, rfl, -, rfl⟩ | ⟨a, rfl, -, rfl⟩ |
    ⟨a, b, rfl, -, rfl⟩ | ⟨rfl, -⟩ := hostStep_next ht
  case inr.inl => simp [quietStep] at hq
  case inr.inr.inr.inr.inr => simp [quietStep] at hq
  all_goals simp

/-- The host steps that are not quiet. -/
theorem hostStep_quiet_or {h : HostStep} {s t : State} (ht : hostStep h s = .next t) :
    quietStep h = true ∨ (∃ v, execute v s.countCommand = .next t) ∨ h = .reset := by
  obtain ⟨off, rfl, -⟩ | ⟨v, -, hx⟩ | ⟨off, v, rfl, hoff, -⟩ | ⟨a, rfl, -⟩ |
    ⟨a, b, rfl, -⟩ | ⟨rfl, -⟩ := hostStep_next ht
  case inr.inl => exact .inr (.inl ⟨v, hx⟩)
  case inr.inr.inr.inr.inr => exact .inr (.inr rfl)
  case inr.inr.inl => exact .inl (by simp [quietStep, hoff])
  all_goals exact .inl rfl

/-- Only the reset event clears ERRSEEN. -/
theorem hostStep_keeps_errSeen {h : HostStep} {s t : State} (ht : hostStep h s = .next t)
    (hs : s.errSeen = true) (hr : h ≠ .reset) : t.errSeen = true := by
  obtain hq | ⟨v, hx⟩ | rfl := hostStep_quiet_or ht
  · rw [(quietStep_flags hq ht).2, hs]
  · exact execute_keeps_errSeen hx (by simpa using hs)
  · exact absurd rfl hr

/-- Settles O27: the error entry and the success rule are the only writers of the flags besides reset. -/
theorem flagsRule : Obligations.FlagsRule := by
  refine ⟨fun w s t h => execute_flags h, fun s t h rest hhost hq hstep => ?_,
    fun s t hstep hs ht => ?_⟩
  · rw [step_host hhost] at hstep
    simpa using quietStep_flags hq hstep
  · obtain ⟨-, rfl⟩ | ⟨h, rest, hhost, hstep⟩ := step_next_cases hstep
    · simp [hs] at ht
    · by_cases hr : h = .reset
      · exact ⟨rest, hr ▸ hhost⟩
      · simp [hostStep_keeps_errSeen hstep (by simpa using hs) hr] at ht

/-! ### The argument registers -/

/-- No effect phase writes an argument register. -/
theorem effectOf_sameArguments (i : Instr) (s : State) : sameArguments s (effectOf i s) := by
  cases i <;> simp [sameArguments, effectOf]

theorem exec_sameArguments {i : Instr} {s t : State} (h : exec i s = .next t) :
    sameArguments s t := by
  obtain ⟨e, -, rfl⟩ | ⟨-, rfl⟩ := exec_next_iff.1 h
  · simp [sameArguments]
  · exact effectOf_sameArguments i s

theorem execute_sameArguments {w : Word} {s t : State} (h : execute w s = .next t) :
    sameArguments s t := by
  obtain ⟨_, -, ht⟩ | ⟨i, -, ht⟩ := execute_cases h
  · cases ht
    simp [sameArguments]
  · exact exec_sameArguments ht.symm

/-- An admitted write at any other offset is ignored (rules R30, R201). -/
theorem setReg_of_not_argument {s : State} {off : Nat} {v : Word}
    (h : off ∉ [0x08, 0x0C, 0x10, 0x14, 0x18, 0x1C]) : setReg s off v = s := by
  unfold setReg
  split <;> simp_all

/-- The host steps that can change an argument register. -/
theorem hostStep_sameArguments_or {h : HostStep} {s t : State} (ht : hostStep h s = .next t) :
    sameArguments s t ∨
      (∃ off v, off ∈ [0x08, 0x0C, 0x10, 0x14, 0x18, 0x1C] ∧ h = .writeReg off 32 v) ∨
      h = .reset := by
  obtain ⟨off, -, rfl⟩ | ⟨v, -, hx⟩ | ⟨off, v, rfl, -, rfl⟩ | ⟨a, -, -, rfl⟩ |
    ⟨a, b, -, -, rfl⟩ | ⟨rfl, -⟩ := hostStep_next ht
  case inr.inl => exact .inl (by simpa [sameArguments] using execute_sameArguments hx)
  case inr.inr.inl =>
    by_cases hoff : off ∈ [0x08, 0x0C, 0x10, 0x14, 0x18, 0x1C]
    · exact .inr (.inl ⟨off, v, hoff, rfl⟩)
    · exact .inl (by simp [setReg_of_not_argument hoff, sameArguments])
  case inr.inr.inr.inr.inr => exact .inr (.inr rfl)
  all_goals exact .inl (by simp [sameArguments])

/-- Settles O30: the frame of a command and the frame of a host step on the six registers. -/
theorem argumentRegistersAreTheHosts : Obligations.ArgumentRegistersAreTheHosts := by
  refine ⟨fun i s t h => exec_sameArguments h, fun s t hstep hne => ?_⟩
  obtain ⟨-, rfl⟩ | ⟨h, rest, hhost, hstep⟩ := step_next_cases hstep
  · exact absurd (by simp [sameArguments]) hne
  · obtain hsame | ⟨off, v, hoff, rfl⟩ | rfl := hostStep_sameArguments_or hstep
    · exact absurd (by simpa [sameArguments] using hsame) hne
    · exact .inl ⟨off, v, rest, hoff, hhost⟩
    · exact .inr ⟨rest, hhost⟩

/-! ### DCTX and DPHASE -/

section
variable {i : Instr} (hi : i ∉ [Instr.dinit, .dupdate, .dfinal]) (s : State) (ph : Phase) (c : Ctx)
include hi

/-- The check phase of a command outside digest streaming does not read DCTX or DPHASE. -/
theorem checksOf_setDigest : checksOf i (s.setDigest ph c) = checksOf i s := by
  cases i
  case dinit | dupdate | dfinal => simp at hi
  all_goals rfl

/-- The effect phase of a command outside digest streaming neither reads nor writes DCTX or DPHASE. -/
theorem effectOf_setDigest : effectOf i (s.setDigest ph c) = (effectOf i s).setDigest ph c := by
  cases i
  case dinit | dupdate | dfinal => simp at hi
  all_goals rfl

/-- A command outside digest streaming commutes with any change of DCTX and DPHASE. -/
theorem exec_setDigest {t : State} (h : exec i s = .next t) :
    exec i (s.setDigest ph c) = .next (t.setDigest ph c) := by
  obtain ⟨e, hfail, rfl⟩ | ⟨hpass, rfl⟩ := exec_next_iff.1 h
  · rw [← checksOf_setDigest hi s ph c] at hfail
    exact exec_of_failing hfail
  · rw [← checksOf_setDigest hi s ph c] at hpass
    rw [exec_of_passing hpass, effectOf_setDigest hi]
    rfl

/-- A command outside digest streaming keeps DCTX and DPHASE: the commutation at the values they have. -/
theorem exec_keeps_digest {t : State} (h : exec i s = .next t) :
    t.dphase = s.dphase ∧ t.dctx = s.dctx := by
  have hcomm := exec_setDigest hi s s.dphase s.dctx h
  rw [setDigest_self, h] at hcomm
  have hkeep : t = t.setDigest s.dphase s.dctx := Host.Outcome.next.inj hcomm
  rw [hkeep]
  exact ⟨rfl, rfl⟩

end

/-- Settles O34: the commutation with a change of the digest context, and the frame it gives. -/
theorem onlyDigestStreamingTouchesDctx : Obligations.OnlyDigestStreamingTouchesDctx := by
  intro i s t ph c hi h
  obtain ⟨hphase, hctx⟩ := exec_keeps_digest hi s h
  exact ⟨hphase, hctx, exec_setDigest hi s ph c h⟩

end Sys2Proof.Machine
end

section
/-! MEM and the commands (20_memory.md rules R60, R61): the bytes a command writes, the one range write its
effect phase is on MEM, then the frame and the content of the output range. -/

namespace Sys2Proof.Machine

/-! ### A range read after a range write -/

/-- The range just written to a canonical MEM reads as the bytes written. -/
theorem memory_readBytes_writeBytes {m : Memory} (h : m.wf = true) (a : Nat) (bs : Bytes) :
    (m.writeBytes a bs).readBytes a bs.length = bs := by
  refine List.ext_getElem (by simp) fun i _ hi => ?_
  simpa [Memory.readBytes] using memory_read_writeBytes_inside h hi

/-! ### The MAC as the nested digest -/

/-- Two chunks absorbed one after the other in a fresh context, and finished, give the digest of both. -/
theorem finish_absorb_absorb (p : Params) (d1 d2 : Bytes) :
    finish p (absorb p (absorb p (ctxInit p) d1) d2) = hashFn p (d1 ++ d2) := by
  rw [absorb_absorb p d1 d2 (by simp [ctxInit_pending]), hashFn]

/-- The inner pad cancels: the toggled key block is K0 under the outer pad (42_mac.md rule R162). -/
theorem toggle_keyBlock (p : Params) (key : Bytes) :
    toggle (keyBlock p key) = xorBlock (k0 p key) opad := by
  have hcancel (b : Byte) : b ^^^ ipad ^^^ (ipad ^^^ opad) = b ^^^ opad := by
    rw [BitVec.xor_assoc, ← BitVec.xor_assoc ipad, BitVec.xor_self, BitVec.zero_xor]
  simp [toggle, keyBlock, xorBlock, Function.comp_def, hcancel]

/-- The run of MINIT, MUPDATE and MFINAL on a context of its own is the nested digest (42_mac.md rules R160,
R166). -/
theorem macOneShot_eq_macFn (p : Params) (data key : Bytes) :
    macOneShot p data key = macFn p data key := by
  simp only [macOneShot, macFinish, macInner, finish_absorb_absorb, toggle_keyBlock, macFn]
  rfl

/-! ### The output of a command -/

/-- The bytes that a successful command writes at DST_ADDR, computed from the state at its start (rules R60,
R61). `effectOf_mem` ties it to the effect phase. -/
def outputBytes (i : Instr) (s : State) : Bytes :=
  match i with
  | .dfinal => finish s.params s.dctx
  | .digest => hashFn s.params s.srcBytes
  | .mfinal => macFinish s.params s.minner s.keyblock
  | .mac => macOneShot s.params s.srcBytes s.keyBytes
  | .kdf => kdfFn s.params s.srcBytes s.outCount
  | .dinit | .dupdate | .minit | .mupdate => []

theorem outputBytes_length (i : Instr) (s : State) :
    (outputBytes i s).length = outputLength i s := by
  cases i
  case dinit | dupdate | minit | mupdate => rfl
  case dfinal => exact finish_length _ _
  case digest => exact hashFn_length _ _
  case mfinal => exact macFinish_length _ _ _
  case mac => exact macOneShot_length _ _ _
  case kdf => exact kdfFn_length _ _ _

/-- On MEM an effect phase is one range write, of bytes that no longer depend on MEM as it is written. -/
theorem effectOf_mem (i : Instr) (s : State) :
    (effectOf i s).mem = s.mem.writeBytes s.dstAddr.toNat (outputBytes i s) := by
  cases i <;> rfl

/-! ### MEM after a command -/

section
variable {i : Instr} {s t : State} (h : exec i s = .next t)
include h

/-- A command that leaves no error has passed its check phase and taken its effect. -/
theorem exec_success (herr : t.err = none) :
    firstFailing (checksOf i s) = none ∧ t = (effectOf i s).success := by
  obtain ⟨e, -, rfl⟩ | hpass := exec_next_iff.1 h
  · simp at herr
  · exact hpass

theorem exec_mem_of_success (herr : t.err = none) :
    t.mem = s.mem.writeBytes s.dstAddr.toNat (outputBytes i s) := by
  obtain ⟨-, rfl⟩ := exec_success h herr
  exact effectOf_mem i s

theorem exec_mem_of_error (herr : t.err ≠ none) : t.mem = s.mem := by
  obtain ⟨e, -, rfl⟩ | ⟨-, rfl⟩ := exec_next_iff.1 h
  · exact errorEntry_mem s e
  · simp at herr

/-- Outside the output range MEM reads as before, whether the command succeeds or fails. -/
theorem exec_read_outside {a : Nat}
    (ha : a < s.dstAddr.toNat ∨ s.dstAddr.toNat + outputLength i s ≤ a) :
    t.mem.read a = s.mem.read a := by
  by_cases herr : t.err = none
  · rw [exec_mem_of_success h herr]
    exact memory_read_writeBytes_outside (by rwa [outputBytes_length])
  · rw [exec_mem_of_error h herr]

/-- A command with no output leaves MEM. -/
theorem exec_mem_of_no_output (hout : outputBytes i s = []) : t.mem = s.mem := by
  by_cases herr : t.err = none
  · rw [exec_mem_of_success h herr, hout, Memory.writeBytes]
  · exact exec_mem_of_error h herr

/-- A successful command wrote its output, which has the length of its output range. -/
theorem exec_writes_output (herr : t.err = none) :
    ∃ out : Bytes, out.length = outputLength i s ∧
      t.mem = s.mem.writeBytes s.dstAddr.toNat out :=
  ⟨outputBytes i s, outputBytes_length i s, exec_mem_of_success h herr⟩

/-- After a success on a canonical MEM the output range reads as the output of the state at the start. -/
theorem exec_readBytes_output (hwf : s.mem.wf = true) (herr : t.err = none) :
    t.mem.readBytes s.dstAddr.toNat (outputLength i s) = outputBytes i s := by
  rw [exec_mem_of_success h herr, ← outputBytes_length]
  exact memory_readBytes_writeBytes hwf _ _

end

/-- A successful KDF had a legal length, so that its byte count is OUT_LEN read unsigned (43_kdf.md rule
R192). -/
theorem exec_kdf_outCount {s t : State} (h : exec .kdf s = .next t) (herr : t.err = none) :
    s.outCount = s.outLen.toNat := by
  obtain ⟨hpass, -⟩ := exec_success h herr
  have hlegal := firstFailing_eq_none.1 hpass (s.outLengthLegal, .badLength) (by simp [checksOf])
  exact outCount_eq hlegal

/-- Settles O32: the effect phase is one range write of the output, and the error entry writes nothing. -/
theorem commandsWriteTheirOutputRangeOnly : Obligations.CommandsWriteTheirOutputRangeOnly := by
  intro i s t h
  refine ⟨fun a => exec_read_outside h, exec_mem_of_error h, fun hi => ?_, fun herr hi => ?_,
    fun herr hi => ?_⟩
  · have hout : outputBytes i s = [] := by
      simp only [List.mem_cons, List.not_mem_nil, or_false] at hi
      obtain rfl | rfl | rfl | rfl := hi <;> rfl
    exact exec_mem_of_no_output h hout
  · have hlen : outputLength i s = 32 := by
      simp only [List.mem_cons, List.not_mem_nil, or_false] at hi
      obtain rfl | rfl | rfl | rfl := hi <;> rfl
    obtain ⟨out, hout, hmem⟩ := exec_writes_output h herr
    exact ⟨out, hout.trans hlen, hmem⟩
  · subst hi
    rw [← exec_kdf_outCount h herr]
    exact exec_writes_output h herr

/-- Settles O33: the range written reads back as the output, which is a function of the state at the start;
for MAC it is the nested digest. -/
theorem outputsAreOfTheInputsAsTheyStood : Obligations.OutputsAreOfTheInputsAsTheyStood := by
  intro s t hwf herr
  refine ⟨fun h => ?digest, fun h => ?mac, fun h => ?kdf, fun h => ?dfinal, fun h => ?mfinal⟩
  case mac => exact (exec_readBytes_output h hwf herr).trans (macOneShot_eq_macFn _ _ _)
  case kdf =>
    have hread := exec_readBytes_output h hwf herr
    rw [outputLength, outputBytes, exec_kdf_outCount h herr] at hread
    exact hread
  case digest | dfinal | mfinal => exact exec_readBytes_output h hwf herr

end Sys2Proof.Machine
end

section
/-! Command words and operand registers (30_encoding.md rules R75, R78): the decoder inverted, a CMD write as
a step, and the registers a command reads. -/

namespace Sys2Proof.Machine

/-! ### The decoder inverted -/

/-- RSV and OP are the whole of a command word (30_encoding.md rule R70). -/
theorem rsvField_append_opField (w : Word) : rsvField w ++ opField w = w :=
  (BitVec.extractLsb'_append_extractLsb'_eq_extractLsb' rfl).trans BitVec.extractLsb'_eq_self

/-- An operation code of OPMAP is the OP of its command's word (rule R73). -/
theorem opMap_eq_some {op : BitVec 8} {i : Instr} (h : opMap op = some i) :
    op = opField (encode i) := by
  unfold opMap at h
  split_ifs at h <;> cases h <;> assumption

theorem rsvField_encode (i : Instr) : rsvField (encode i) = 0 := by
  cases i <;> rfl

/-- A word that decodes is the word of the command it decodes to. -/
theorem eq_encode_of_decode {w : Word} {i : Instr} (h : decode w = .ok i) : w = encode i := by
  unfold decode at h
  split at h
  · cases h
  · rename_i hrsv
    split at h <;> cases h
    rename_i hop
    calc w = rsvField w ++ opField w := (rsvField_append_opField w).symm
      _ = rsvField (encode i) ++ opField (encode i) := by
        rw [not_not.1 hrsv, opMap_eq_some hop, rsvField_encode]
      _ = encode i := rsvField_append_opField _

/-- The command words are the nine of the table of rule R73. -/
theorem encode_mem_words (i : Instr) :
    encode i ∈ ([0x01, 0x02, 0x03, 0x04, 0x11, 0x12, 0x13, 0x14, 0x21] : List Word) := by
  cases i <;> decide

/-- A word outside the nine is ILLEGAL (rules R71, R78). -/
theorem decode_error_of_not_mem {w : Word}
    (h : w ∉ ([0x01, 0x02, 0x03, 0x04, 0x11, 0x12, 0x13, 0x14, 0x21] : List Word)) :
    ∃ e, decode w = .error e := by
  cases hd : decode w with
  | error e => exact ⟨e, rfl⟩
  | ok i => exact absurd (eq_encode_of_decode hd ▸ encode_mem_words i) h

/-! ### A CMD write as a step -/

/-- Executing an illegal word is the error entry of ILLEGAL_COMMAND. -/
theorem execute_of_illegal {w : Word} {e : DecodeError} (h : decode w = .error e) (s : State) :
    execute w s = .next (s.errorEntry .illegalCommand) := by
  rw [execute, h]

/-- A step at a CMD write executes the word, with the write off the stream and the position counted. -/
theorem step_cmdWrite {s : State} {w : Word} {rest : List HostStep}
    (h : s.host = .writeReg 0x00 32 w :: rest) :
    step s = execute w (s.withHost rest).countCommand :=
  step_host h

/-- Settles O3: only the nine words decode, and the error entry is all that an illegal word does. -/
theorem wordsOutsideTheNineAreIllegal : Obligations.WordsOutsideTheNineAreIllegal := by
  intro w s rest hw hhost
  obtain ⟨e, he⟩ := decode_error_of_not_mem hw
  rw [step_cmdWrite hhost, execute_of_illegal he]
  rfl

/-! ### The registers a write leaves -/

section
variable {off : Nat} (s : State) (v : Word)

@[simp] theorem setReg_srcAddr_of_ne (h : off ≠ 0x08) : (setReg s off v).srcAddr = s.srcAddr := by
  unfold setReg; split <;> trivial

@[simp] theorem setReg_srcLen_of_ne (h : off ≠ 0x0C) : (setReg s off v).srcLen = s.srcLen := by
  unfold setReg; split <;> trivial

@[simp] theorem setReg_keyAddr_of_ne (h : off ≠ 0x10) : (setReg s off v).keyAddr = s.keyAddr := by
  unfold setReg; split <;> trivial

@[simp] theorem setReg_keyLen_of_ne (h : off ≠ 0x14) : (setReg s off v).keyLen = s.keyLen := by
  unfold setReg; split <;> trivial

@[simp] theorem setReg_dstAddr_of_ne (h : off ≠ 0x18) : (setReg s off v).dstAddr = s.dstAddr := by
  unfold setReg; split <;> trivial

@[simp] theorem setReg_outLen_of_ne (h : off ≠ 0x1C) : (setReg s off v).outLen = s.outLen := by
  unfold setReg; split <;> trivial

end

/-! ### A register write and the writes of a command -/

section
variable (s : State) (off : Nat) (v : Word)

theorem setReg_writeMem (addr : Word) (bs : Bytes) :
    (setReg s off v).writeMem addr bs = setReg (s.writeMem addr bs) off v := by
  unfold setReg; split <;> rfl

theorem setReg_setDigest (ph : Phase) (c : Ctx) :
    (setReg s off v).setDigest ph c = setReg (s.setDigest ph c) off v := by
  unfold setReg; split <;> rfl

theorem setReg_setMac (ph : Phase) (c : Ctx) (kb : Vector Byte 64) :
    (setReg s off v).setMac ph c kb = setReg (s.setMac ph c kb) off v := by
  unfold setReg; split <;> rfl

theorem setReg_errorEntry (e : ErrorCode) :
    (setReg s off v).errorEntry e = setReg (s.errorEntry e) off v := by
  unfold setReg; split <;> rfl

theorem setReg_success : (setReg s off v).success = setReg s.success off v := by
  unfold setReg; split <;> rfl

end

/-! ### The operands under a write of another register -/

section
variable {off : Nat} (s : State) (v : Word)

@[simp] theorem setReg_srcInRange (ha : off ≠ 0x08) (hl : off ≠ 0x0C) :
    (setReg s off v).srcInRange = s.srcInRange := by simp [State.srcInRange, ha, hl]

@[simp] theorem setReg_srcBytes (ha : off ≠ 0x08) (hl : off ≠ 0x0C) :
    (setReg s off v).srcBytes = s.srcBytes := by simp [State.srcBytes, ha, hl]

@[simp] theorem setReg_keyInRange (ha : off ≠ 0x10) (hl : off ≠ 0x14) :
    (setReg s off v).keyInRange = s.keyInRange := by simp [State.keyInRange, ha, hl]

@[simp] theorem setReg_keyBytes (ha : off ≠ 0x10) (hl : off ≠ 0x14) :
    (setReg s off v).keyBytes = s.keyBytes := by simp [State.keyBytes, ha, hl]

@[simp] theorem setReg_dstInRange (ha : off ≠ 0x18) (n : Nat) :
    (setReg s off v).dstInRange n = s.dstInRange n := by simp [State.dstInRange, ha]

@[simp] theorem setReg_outLengthLegal (h : off ≠ 0x1C) :
    (setReg s off v).outLengthLegal = s.outLengthLegal := by
  rw [Bool.eq_iff_iff, outLengthLegal_iff, outLengthLegal_iff, setReg_outLen_of_ne s v h]

@[simp] theorem setReg_outCount (h : off ≠ 0x1C) : (setReg s off v).outCount = s.outCount := by
  simp [State.outCount, State.outLength, h]

end

/-! ### A command under a write of a register it does not read -/

section
variable {i : Instr} {off : Nat} (hoff : off ∉ operandOffsets i) (s : State) (v : Word)
include hoff

/-- The check phase does not read a register outside the command's operands. -/
theorem checksOf_setReg : checksOf i (setReg s off v) = checksOf i s := by
  cases i
  case dinit => rfl
  all_goals
    simp only [operandOffsets, List.mem_cons, List.not_mem_nil, or_false, not_or] at hoff
    simp [checksOf, hoff]

/-- The effect phase neither reads nor writes a register outside the command's operands. -/
theorem effectOf_setReg : effectOf i (setReg s off v) = setReg (effectOf i s) off v := by
  cases i
  case dinit => simp [effectOf, setReg_setDigest]
  all_goals
    simp only [operandOffsets, List.mem_cons, List.not_mem_nil, or_false, not_or] at hoff
    simp [effectOf, hoff, setReg_writeMem, setReg_setDigest, setReg_setMac]

/-- A command commutes with a write of a register outside its operands. -/
theorem exec_setReg {t : State} (h : exec i s = .next t) :
    exec i (setReg s off v) = .next (setReg t off v) := by
  obtain ⟨e, hfail, rfl⟩ | ⟨hpass, rfl⟩ := exec_next_iff.1 h
  · rw [← checksOf_setReg hoff s v] at hfail
    rw [exec_of_failing hfail, setReg_errorEntry]
  · rw [← checksOf_setReg hoff s v] at hpass
    rw [exec_of_passing hpass, effectOf_setReg hoff, setReg_success]

end

/-- Settles O36: the commutation holds at every offset that is not an operand's, so at the six registers. -/
theorem unlistedRegistersHaveNoEffect : Obligations.UnlistedRegistersHaveNoEffect :=
  fun _ s _ _ v _ hoff h => exec_setReg hoff s v h

end Sys2Proof.Machine
end

section
/-! The message expansion of a block (spec/40_datapath.md rules R104, R105). `extendWords` holds the
words newest first; its laws are stated there and turned round once, for `expandWords`. -/

namespace Sys2Proof.Machine

/-! ### The words of a list -/

theorem wordAt_drop (ws : List Word) (n i : Nat) : wordAt (ws.drop n) i = wordAt ws (n + i) := by
  simp [wordAt, List.getD_eq_getElem?_getD]

theorem wordAt_reverse {ws : List Word} {i : Nat} (h : i < ws.length) :
    wordAt ws.reverse i = wordAt ws (ws.length - 1 - i) :=
  congrFun (List.getD_reverse i h) 0

/-! ### The extension, newest word first -/

@[simp] theorem length_extendWords (n : Nat) (ws : List Word) :
    (extendWords n ws).length = n + ws.length := by
  induction n generalizing ws with
  | zero => simp [extendWords]
  | succ n ih => simp [extendWords, ih]; omega

/-- The words an extension starts from stand unchanged behind the new ones. -/
@[simp] theorem drop_extendWords (n : Nat) (ws : List Word) : (extendWords n ws).drop n = ws := by
  induction n generalizing ws with
  | zero => rfl
  | succ n ih => rw [extendWords, ← List.drop_drop, ih, List.drop_one, List.tail_cons]

/-- Every new word comes from the words before it, which the list holds behind it. -/
theorem wordAt_extendWords_of_lt {n k : Nat} (h : k < n) (ws : List Word) :
    wordAt (extendWords n ws) k = nextWord ((extendWords n ws).drop (k + 1)) := by
  induction n generalizing ws with
  | zero => omega
  | succ n ih =>
    obtain hk | rfl := Nat.lt_succ_iff_lt_or_eq.1 h
    · exact ih hk _
    · calc wordAt (extendWords (k + 1) ws) k
          = wordAt ((extendWords k (nextWord ws :: ws)).drop k) 0 := (wordAt_drop _ k 0).symm
        _ = nextWord ws := by rw [drop_extendWords]; rfl
        _ = nextWord ((extendWords (k + 1) ws).drop (k + 1)) := by rw [drop_extendWords]

/-! ### The words of a block -/

@[simp] theorem length_loadWords (blk : Bytes) : (loadWords blk).length = 16 := by
  simp [loadWords]

theorem wordAt_loadWords {i : Nat} (h : i < 16) (blk : Bytes) :
    wordAt (loadWords blk) i = readBE32 blk (4 * i) := by
  simp [wordAt, loadWords, h]

theorem length_expandWords (blk : Bytes) : (expandWords blk).length = 68 := by
  simp [expandWords]

/-- Word `j` of a block in the newest-first list. -/
theorem wordAt_expandWords {j : Nat} (h : j < 68) (blk : Bytes) :
    wordAt (expandWords blk) j = wordAt (extendWords 52 (loadWords blk).reverse) (67 - j) := by
  rw [expandWords, wordAt_reverse (by simpa using h)]
  simp

/-- The first 16 words are those of the message load (rule R104). -/
theorem wordAt_expandWords_of_lt {i : Nat} (h : i < 16) (blk : Bytes) :
    wordAt (expandWords blk) i = readBE32 blk (4 * i) := by
  calc wordAt (expandWords blk) i
      = wordAt (extendWords 52 (loadWords blk).reverse) (52 + (15 - i)) := by
        rw [wordAt_expandWords (by omega)]; congr 1; omega
    _ = wordAt (loadWords blk).reverse (15 - i) := by rw [← wordAt_drop, drop_extendWords]
    _ = wordAt (loadWords blk) i := by
        rw [wordAt_reverse (by rw [length_loadWords]; omega), length_loadWords]; congr 1; omega
    _ = readBE32 blk (4 * i) := wordAt_loadWords h blk

/-- The later words follow the recurrence (rule R105): the word `d` before word `j` stands `d - 1` places
into the words behind it in the newest-first list. -/
theorem wordAt_expandWords_recurrence {j : Nat} (hlo : 16 ≤ j) (hhi : j < 68) (blk : Bytes) :
    wordAt (expandWords blk) j =
      p1 (wordAt (expandWords blk) (j - 16) ^^^ wordAt (expandWords blk) (j - 9) ^^^
          rotl (wordAt (expandWords blk) (j - 3)) 15) ^^^
        rotl (wordAt (expandWords blk) (j - 13)) 7 ^^^ wordAt (expandWords blk) (j - 6) := by
  have earlier : ∀ d, d < 16 →
      wordAt ((extendWords 52 (loadWords blk).reverse).drop (67 - j + 1)) d =
        wordAt (expandWords blk) (j - (d + 1)) := by
    intro d hd
    rw [wordAt_drop, wordAt_expandWords (by omega)]
    congr 1
    omega
  rw [wordAt_expandWords hhi, wordAt_extendWords_of_lt (by omega), nextWord,
    earlier 15 (by decide), earlier 8 (by decide), earlier 2 (by decide), earlier 12 (by decide),
    earlier 5 (by decide)]

/-- Settles O46: the length, the load and the recurrence of the expansion. -/
theorem expansionRecurrence : Obligations.ExpansionRecurrence := fun blk =>
  ⟨length_expandWords blk,
    fun _ hi => wordAt_expandWords_of_lt (Nat.lt_succ_of_le hi) blk,
    fun _ hlo hhi => wordAt_expandWords_recurrence hlo (Nat.lt_succ_of_le hhi) blk⟩

end Sys2Proof.Machine
end

section
/-! The digest family (41_digest.md rules R141 to R145): the check phase of each command as one chain of
conditions, then the rules of the commands and the phase table. -/

namespace Sys2Proof.Machine

/-! ### Command words and check phases -/

/-- The word of a command decodes to the command (30_encoding.md rules R71, R73). -/
theorem decode_encode (i : Instr) : decode (encode i) = .ok i := by
  cases i <;> decide

/-- The length check in bytes: below 2^64 bits is at most 2^61 - 1 bytes (rule R134). -/
theorem lenOK_iff {c : Ctx} {n : Nat} : lenOK c n = true ↔ msgLen c + n ≤ 2 ^ 61 - 1 := by
  rw [lenOK_iff_bits]
  omega

section
variable (s : State)

/-- DUPDATE checks the phase, then the source range, then the length (rule R143). -/
theorem firstFailing_dupdate :
    firstFailing (checksOf .dupdate s) =
      if s.dphase = .ready then
        if s.srcAddr.toNat + s.srcLen.toNat ≤ s.params.memSize then
          if msgLen s.dctx + s.srcLen.toNat ≤ 2 ^ 61 - 1 then none else some .lengthOverflow
        else some .outOfRange
      else some .badState := by
  simp only [checksOf, firstFailing, beq_iff_eq, srcInRange_iff, lenOK_iff]

/-- DFINAL checks the phase, then the destination range (rule R144). -/
theorem firstFailing_dfinal :
    firstFailing (checksOf .dfinal s) =
      if s.dphase = .ready then
        if s.dstAddr.toNat + 32 ≤ s.params.memSize then none else some .outOfRange
      else some .badState := by
  simp only [checksOf, firstFailing, beq_iff_eq, dstInRange_iff, digestBytes]

/-- DIGEST checks its two ranges together and no phase (rule R145). -/
theorem firstFailing_digest :
    firstFailing (checksOf .digest s) =
      if s.srcAddr.toNat + s.srcLen.toNat ≤ s.params.memSize ∧
          s.dstAddr.toNat + 32 ≤ s.params.memSize then none
      else some .outOfRange := by
  simp only [checksOf, firstFailing, Bool.and_eq_true, srcInRange_iff, dstInRange_iff, digestBytes]

end

/-- Setting DCTX and a phase that DPHASE already has writes DCTX alone. -/
theorem setDigest_of_dphase {s : State} {ph : Phase} (h : s.dphase = ph) (c : Ctx) :
    s.setDigest ph c = { s with dctx := c } := by
  subst h
  rfl

/-! ### The rules of the commands -/

/-- DINIT has no check phase: it takes its effect in every state (rule R142). -/
theorem exec_dinit (s : State) :
    exec .dinit s = .next (s.setDigest .ready (ctxInit s.params)).success :=
  exec_of_passing rfl

/-- Settles O16: DINIT has no check, and its effect is CtxInit and the phase. -/
theorem dinitRule : Obligations.DinitRule := ⟨decode_encode .dinit, exec_dinit⟩

/-- Settles O17: each clause picks one branch of the check phase. -/
theorem dupdateRule : Obligations.DupdateRule := by
  refine ⟨decode_encode .dupdate, fun s => ⟨fun hready hsrc hlen => ?_, fun hready => ?_,
    fun hready hsrc => ?_, fun hready hsrc hlen => ?_⟩⟩
  · have hpass : firstFailing (checksOf .dupdate s) = none := by
      rw [firstFailing_dupdate, if_pos hready, if_pos hsrc, if_pos hlen]
    rw [exec_of_passing hpass, effectOf, setDigest_of_dphase hready]
    rfl
  · exact exec_of_failing (by rw [firstFailing_dupdate, if_neg hready])
  · exact exec_of_failing (by
      rw [firstFailing_dupdate, if_pos hready, if_neg (Nat.not_le.2 hsrc)])
  · exact exec_of_failing (by
      rw [firstFailing_dupdate, if_pos hready, if_pos hsrc, if_neg (Nat.not_le.2 hlen)])

/-- Settles O18: each clause picks one branch of the check phase. -/
theorem dfinalRule : Obligations.DfinalRule := by
  refine ⟨decode_encode .dfinal, fun s => ⟨fun hready hdst => ?_, fun hready => ?_,
    fun hready hdst => ?_⟩⟩
  · exact exec_of_passing (by rw [firstFailing_dfinal, if_pos hready, if_pos hdst])
  · exact exec_of_failing (by rw [firstFailing_dfinal, if_neg hready])
  · exact exec_of_failing (by
      rw [firstFailing_dfinal, if_pos hready, if_neg (Nat.not_le.2 hdst)])

/-- Settles O19: both ranges in MEM is the one check, and either of them outside fails it. -/
theorem digestRule : Obligations.DigestRule := by
  refine ⟨decode_encode .digest, fun s => ⟨fun hsrc hdst => ?_, fun hout => ?_⟩⟩
  · exact exec_of_passing (by rw [firstFailing_digest, if_pos ⟨hsrc, hdst⟩])
  · exact exec_of_failing (by rw [firstFailing_digest, if_neg (by omega)])

/-! ### The phase table -/

/-- A command that leaves an error has taken the error entry of its first failing check. -/
theorem exec_error {i : Instr} {s t : State} (h : exec i s = .next t) (herr : t.err ≠ none) :
    ∃ e, firstFailing (checksOf i s) = some e ∧ t = s.errorEntry e := by
  obtain hfail | ⟨-, rfl⟩ := exec_next_iff.1 h
  · exact hfail
  · simp at herr

/-- Outside READY the first check of DUPDATE and of DFINAL fails (rules R143, R144). -/
theorem exec_digest_not_ready {i : Instr} {s : State} (hi : i ∈ [Instr.dupdate, .dfinal])
    (hs : s.dphase ≠ .ready) : exec i s = .next (s.errorEntry .badState) := by
  simp only [List.mem_cons, List.not_mem_nil, or_false] at hi
  obtain rfl | rfl := hi
  · exact exec_of_failing (by rw [firstFailing_dupdate, if_neg hs])
  · exact exec_of_failing (by rw [firstFailing_dfinal, if_neg hs])

/-- Settles O38: a row of the table for each command; the error entry keeps the phase, and the commands
outside the table do not reach it. -/
theorem digestPhaseTable : Obligations.DigestPhaseTable := by
  intro i s t h
  refine ⟨?dinit, ?dupdate, ?finished, ?failed, ?unready, ?other⟩
  case dinit =>
    rintro rfl
    cases (exec_dinit s).symm.trans h
    rfl
  case dupdate =>
    rintro rfl hready
    obtain ⟨e, -, rfl⟩ | ⟨-, rfl⟩ := exec_next_iff.1 h
    · exact hready
    · rfl
  case finished =>
    rintro rfl - herr
    obtain ⟨-, rfl⟩ := exec_success h herr
    rfl
  case failed =>
    rintro rfl hready herr
    obtain ⟨e, -, rfl⟩ := exec_error h herr
    exact hready
  case unready =>
    intro hi hs
    cases (exec_digest_not_ready hi hs).symm.trans h
    exact ⟨rfl, rfl, rfl⟩
  case other => exact fun hi => (exec_keeps_digest hi s h).1

end Sys2Proof.Machine
end

section
/-! The MAC family (42_mac.md rules R160 to R167): the key block and the context that holds it, the check
phase of each command as one chain of conditions, then the rules of the commands and the phase table. -/

namespace Sys2Proof.Machine

/-! ### The key block -/

theorem k0_toList_of_le (p : Params) {key : Bytes} (h : key.length ≤ 64) :
    (k0 p key).toList = key ++ zeros (64 - key.length) := by
  rw [k0, if_pos h, padTo64_toList h]

theorem k0_toList_of_lt (p : Params) {key : Bytes} (h : 64 < key.length) :
    (k0 p key).toList = hashFn p key ++ zeros 32 := by
  rw [k0, if_neg (Nat.not_le.2 h), padTo64_toList (by simp), hashFn_length]

theorem xorBlock_toList (kb : Vector Byte 64) (c : Byte) :
    (xorBlock kb c).toList = kb.toList.map (· ^^^ c) :=
  Vector.toList_map

/-- Settles O54: the two cases of K0, and the inner pad byte by byte. -/
theorem keyBlockForms : Obligations.KeyBlockForms := fun p key =>
  ⟨k0_toList_of_le p, k0_toList_of_lt p, xorBlock_toList (k0 p key) ipad⟩

/-! ### The inner context of a new MAC -/

theorem cfn_one (k : Vector Word 64) (v : Vector Word 8) {blk : Bytes} (h : blk.length = 64) :
    cfn k 1 v blk = cf k v blk := by
  rw [cfn, cfn, blockBytes, List.take_of_length_le h.le]

/-- A whole block absorbed in a fresh context is compressed at once, and nothing is pending (rule R135). -/
theorem absorb_ctxInit_block (p : Params) {blk : Bytes} (h : blk.length = 64) :
    absorb p (ctxInit p) blk = { v := cf p.ktab p.iv blk, buf := [], nblocks := 1 } := by
  rw [absorb_eq p blk (by simp [ctxInit_pending])]
  simp [ctxInit, h, cfn_one]

/-- The inner context of a new MAC is one block on (rule R163). -/
theorem macInner_eq (p : Params) (kb : Vector Byte 64) :
    macInner p kb = { v := cf p.ktab p.iv kb.toList, buf := [], nblocks := 1 } :=
  absorb_ctxInit_block p Vector.length_toList

/-- The MAC of an inner context: the inner digest, and the digest of the toggled key block followed by it,
with the toggle written as one XOR (rules R162, R165). -/
theorem macFinish_eq (p : Params) (inner : Ctx) (kb : Vector Byte 64) :
    macFinish p inner kb =
      finish p (absorb p (absorb p (ctxInit p) (kb.map (· ^^^ 0x6A)).toList) (finish p inner)) := by
  simp only [macFinish, toggle_eq]

/-! ### Check phases -/

section
variable (s : State)

/-- MINIT checks the key range alone (rule R163). -/
theorem firstFailing_minit :
    firstFailing (checksOf .minit s) =
      if s.keyAddr.toNat + s.keyLen.toNat ≤ s.params.memSize then none else some .outOfRange := by
  simp only [checksOf, firstFailing, keyInRange_iff]

/-- MUPDATE checks the phase, then the source range, then the length (rule R164). -/
theorem firstFailing_mupdate :
    firstFailing (checksOf .mupdate s) =
      if s.mphase = .ready then
        if s.srcAddr.toNat + s.srcLen.toNat ≤ s.params.memSize then
          if msgLen s.minner + s.srcLen.toNat ≤ 2 ^ 61 - 1 then none else some .lengthOverflow
        else some .outOfRange
      else some .badState := by
  simp only [checksOf, firstFailing, beq_iff_eq, srcInRange_iff, lenOK_iff]

/-- MFINAL checks the phase, then the destination range (rule R165). -/
theorem firstFailing_mfinal :
    firstFailing (checksOf .mfinal s) =
      if s.mphase = .ready then
        if s.dstAddr.toNat + 32 ≤ s.params.memSize then none else some .outOfRange
      else some .badState := by
  simp only [checksOf, firstFailing, beq_iff_eq, dstInRange_iff, digestBytes]

/-- MAC checks its three ranges together and no phase (rule R166). -/
theorem firstFailing_mac :
    firstFailing (checksOf .mac s) =
      if (s.srcAddr.toNat + s.srcLen.toNat ≤ s.params.memSize ∧
            s.keyAddr.toNat + s.keyLen.toNat ≤ s.params.memSize) ∧
          s.dstAddr.toNat + 32 ≤ s.params.memSize then none
      else some .outOfRange := by
  simp only [checksOf, firstFailing, Bool.and_eq_true, srcInRange_iff, keyInRange_iff,
    dstInRange_iff, digestBytes]

end

/-- Setting MINNER, with the phase and the key block that MCTX already has, writes MINNER alone. -/
theorem setMac_of_mphase {s : State} {ph : Phase} (h : s.mphase = ph) (c : Ctx) :
    s.setMac ph c s.keyblock = { s with minner := c } := by
  subst h
  rfl

/-- A success that writes an output and replaces MCTX, as one record. -/
theorem success_setMac_writeMem (s : State) (addr : Word) (out : Bytes) (ph : Phase) (c : Ctx)
    (kb : Vector Byte 64) :
    ((s.writeMem addr out).setMac ph c kb).success =
      { s with mem := s.mem.writeBytes addr.toNat out, minner := c, keyblock := kb, mphase := ph,
               err := none } := rfl

/-! ### The rules of the commands -/

/-- Settles O20: one check, and the effect with the inner context in closed form. -/
theorem minitRule : Obligations.MinitRule := by
  refine ⟨decode_encode .minit, fun s => ⟨fun hkey => ?_, fun hkey => ?_⟩⟩
  · have hpass : firstFailing (checksOf .minit s) = none := by
      rw [firstFailing_minit, if_pos hkey]
    rw [exec_of_passing hpass, effectOf, macInner_eq]
    rfl
  · exact exec_of_failing (by rw [firstFailing_minit, if_neg (Nat.not_le.2 hkey)])

/-- Settles O21: each clause picks one branch of the check phase. -/
theorem mupdateRule : Obligations.MupdateRule := by
  refine ⟨decode_encode .mupdate, fun s => ⟨fun hready hsrc hlen => ?_, fun hready => ?_,
    fun hready hsrc => ?_, fun hready hsrc hlen => ?_⟩⟩
  · have hpass : firstFailing (checksOf .mupdate s) = none := by
      rw [firstFailing_mupdate, if_pos hready, if_pos hsrc, if_pos hlen]
    rw [exec_of_passing hpass, effectOf, setMac_of_mphase hready]
    rfl
  · exact exec_of_failing (by rw [firstFailing_mupdate, if_neg hready])
  · exact exec_of_failing (by
      rw [firstFailing_mupdate, if_pos hready, if_neg (Nat.not_le.2 hsrc)])
  · exact exec_of_failing (by
      rw [firstFailing_mupdate, if_pos hready, if_pos hsrc, if_neg (Nat.not_le.2 hlen)])

/-- Settles O22: each clause picks one branch of the check phase; the toggle is the XOR with 0x6A. -/
theorem mfinalRule : Obligations.MfinalRule := by
  refine ⟨decode_encode .mfinal, fun s => ⟨fun hready hdst => ?_, fun hready => ?_,
    fun hready hdst => ?_⟩⟩
  · have hpass : firstFailing (checksOf .mfinal s) = none := by
      rw [firstFailing_mfinal, if_pos hready, if_pos hdst]
    rw [exec_of_passing hpass, effectOf, macFinish_eq, success_setMac_writeMem, ctxZero]
  · exact exec_of_failing (by rw [firstFailing_mfinal, if_neg hready])
  · exact exec_of_failing (by
      rw [firstFailing_mfinal, if_pos hready, if_neg (Nat.not_le.2 hdst)])

/-- Settles O23: the three ranges in MEM are the one check, and the run on a private context gives the
nested digest. -/
theorem macRule : Obligations.MacRule := by
  refine ⟨decode_encode .mac, fun s => ⟨fun hsrc hkey hdst => ?_, fun hout => ?_⟩⟩
  · have hpass : firstFailing (checksOf .mac s) = none := by
      rw [firstFailing_mac, if_pos ⟨⟨hsrc, hkey⟩, hdst⟩]
    rw [exec_of_passing hpass, effectOf, macOneShot_eq_macFn]
    rfl
  · exact exec_of_failing (by rw [firstFailing_mac, if_neg (by omega)])

/-! ### The phase table -/

/-- Outside READY the first check of MUPDATE and of MFINAL fails (rules R164, R165). -/
theorem exec_mac_not_ready {i : Instr} {s : State} (hi : i ∈ [Instr.mupdate, .mfinal])
    (hs : s.mphase ≠ .ready) : exec i s = .next (s.errorEntry .badState) := by
  simp only [List.mem_cons, List.not_mem_nil, or_false] at hi
  obtain rfl | rfl := hi
  · exact exec_of_failing (by rw [firstFailing_mupdate, if_neg hs])
  · exact exec_of_failing (by rw [firstFailing_mfinal, if_neg hs])

/-- No effect phase outside MAC streaming writes MPHASE. -/
theorem effectOf_mphase {i : Instr} (hi : i ∉ [Instr.minit, .mupdate, .mfinal]) (s : State) :
    (effectOf i s).mphase = s.mphase := by
  cases i
  case minit | mupdate | mfinal => simp at hi
  all_goals rfl

/-- A command that leaves an error keeps MPHASE: the error entry does not write it (rule R225). -/
theorem exec_error_mphase {i : Instr} {s t : State} (h : exec i s = .next t)
    (herr : t.err ≠ none) : t.mphase = s.mphase := by
  obtain ⟨e, -, rfl⟩ := exec_error h herr
  exact errorEntry_mphase s e

/-- Settles O39: a row of the table for each command; the error entry keeps the phase, and the commands
outside the table do not write it. -/
theorem macPhaseTable : Obligations.MacPhaseTable := by
  intro i s t h
  refine ⟨?minit, ?minitFailed, ?mupdate, ?finished, ?failed, ?unready, ?other⟩
  case minit =>
    rintro rfl herr
    obtain ⟨-, rfl⟩ := exec_success h herr
    rfl
  case minitFailed => exact fun _ herr => exec_error_mphase h herr
  case mupdate =>
    rintro rfl hready
    obtain ⟨e, -, rfl⟩ | ⟨-, rfl⟩ := exec_next_iff.1 h
    · exact hready
    · rfl
  case finished =>
    rintro rfl - herr
    obtain ⟨-, rfl⟩ := exec_success h herr
    rfl
  case failed => exact fun _ hready herr => (exec_error_mphase h herr).trans hready
  case unready =>
    intro hi hs
    cases (exec_mac_not_ready hi hs).symm.trans h
    exact ⟨rfl, rfl, rfl, rfl⟩
  case other =>
    intro hi
    obtain ⟨e, -, rfl⟩ | ⟨-, rfl⟩ := exec_next_iff.1 h
    · exact errorEntry_mphase s e
    · exact effectOf_mphase hi s

end Sys2Proof.Machine
end

section
/-! KDF (43_kdf.md rules R190 to R192): the sign of OUT_LEN as its bit 31, the check phase as one chain of
conditions, then the rule of the command. -/

namespace Sys2Proof.Machine

/-- No key stream is requested by a length of 0 (rule R191). -/
@[simp] theorem kdfFn_zero (p : Params) (secret : Bytes) : kdfFn p secret 0 = [] := List.take_zero

/-- A requested length is legal exactly when bit 31 of OUT_LEN is 0 (rule R190). -/
theorem outLengthLegal_iff_bit {s : State} :
    s.outLengthLegal = true ↔ s.outLen.getLsbD 31 = false := by
  have hmsb : s.outLen.getLsbD 31 = s.outLen.msb := (BitVec.msb_eq_getLsbD_last _).symm
  rw [outLengthLegal_iff, hmsb, BitVec.msb_eq_false_iff_two_mul_lt]
  omega

/-- KDF checks the sign of the length, then its two ranges together (rule R192). -/
theorem firstFailing_kdf (s : State) :
    firstFailing (checksOf .kdf s) =
      if s.outLen.getLsbD 31 = false then
        if s.srcAddr.toNat + s.srcLen.toNat ≤ s.params.memSize ∧
            s.dstAddr.toNat + s.outLen.toNat ≤ s.params.memSize then none
        else some .outOfRange
      else some .badLength := by
  simp only [checksOf, firstFailing, outLengthLegal_iff_bit, Bool.and_eq_true, srcInRange_iff,
    dstInRange_iff]
  split
  case isTrue hlegal => rw [outCount_eq (outLengthLegal_iff_bit.2 hlegal)]
  case isFalse => rfl

/-- A legal request with both ranges in MEM writes its key stream at DST_ADDR and clears ERR; this is the
whole next state. -/
theorem exec_kdf_of_passing {s : State} (hlegal : s.outLen.getLsbD 31 = false)
    (hsrc : s.srcAddr.toNat + s.srcLen.toNat ≤ s.params.memSize)
    (hdst : s.dstAddr.toNat + s.outLen.toNat ≤ s.params.memSize) :
    exec .kdf s = .next { s with
      mem := s.mem.writeBytes s.dstAddr.toNat
        (kdfFn s.params (s.mem.readBytes s.srcAddr.toNat s.srcLen.toNat) s.outLen.toNat),
      err := none } := by
  have hpass : firstFailing (checksOf .kdf s) = none := by
    rw [firstFailing_kdf, if_pos hlegal, if_pos ⟨hsrc, hdst⟩]
  rw [exec_of_passing hpass, effectOf, outCount_eq (outLengthLegal_iff_bit.2 hlegal)]
  rfl

/-- Settles O24: each clause picks one branch of the check phase, and a length of 0 is a legal request whose
key stream is empty. -/
theorem kdfRule : Obligations.KdfRule := by
  refine ⟨decode_encode .kdf, fun s => ⟨exec_kdf_of_passing, fun hzero hsrc hdst => ?_,
    fun hneg => ?_, fun hlegal hout => ?_⟩⟩
  · have hwrite := exec_kdf_of_passing (s := s) (by simp [hzero]) hsrc (by simpa [hzero] using hdst)
    simpa [hzero, Memory.writeBytes] using hwrite
  · exact exec_of_failing (by rw [firstFailing_kdf, if_neg (by simp [hneg])])
  · exact exec_of_failing (by rw [firstFailing_kdf, if_pos hlegal, if_neg (by omega)])

end Sys2Proof.Machine
end

section
/-! The register accesses (44_host_access.md rules R200 and R201): the admission condition, the value of a
read and the effect of a write as one chain over the offsets, then the statements. -/

namespace Sys2Proof.Machine

/-! ### Admission -/

/-- The three conditions of an access that is part of the interface (rule R200). -/
theorem admittedAccess_iff {off width : Nat} :
    admittedAccess off width = true ↔ width = 32 ∧ off % 4 = 0 ∧ off < 0x100 := by
  simp only [admittedAccess, Bool.and_eq_true, decide_eq_true_eq, and_assoc]

section
variable {s : State} {off width : Nat} {v : Word} {rest : List HostStep}

/-- A step at an admitted read delivers the value of its offset, with the read off the stream. -/
theorem step_readReg_of_admitted (hs : s.host = .readReg off width :: rest)
    (ha : admittedAccess off width = true) :
    step s = .next ((s.withHost rest).deliver (.reg off (readReg (s.withHost rest) off))) :=
  (step_host hs).trans (if_pos ha)

theorem step_readReg_of_not_admitted (hs : s.host = .readReg off width :: rest)
    (ha : ¬admittedAccess off width = true) :
    step s = .refused (.registerAccessNotAdmitted off width) :=
  (step_host hs).trans (if_neg ha)

/-- A step at an admitted write is the write at the state with the host step off the stream. -/
theorem step_writeReg_of_admitted (hs : s.host = .writeReg off width v :: rest)
    (ha : admittedAccess off width = true) : step s = writeReg (s.withHost rest) off v :=
  (step_host hs).trans (if_pos ha)

theorem step_writeReg_of_not_admitted (hs : s.host = .writeReg off width v :: rest)
    (ha : ¬admittedAccess off width = true) :
    step s = .refused (.registerAccessNotAdmitted off width) :=
  (step_host hs).trans (if_neg ha)

end

/-! ### The offsets -/

/-- CMD and every reserved offset read as 0 (rules R22, R30, R200). -/
theorem readReg_of_unnamed {s : State} {off : Nat}
    (h : off ∉ [0x04, 0x08, 0x0C, 0x10, 0x14, 0x18, 0x1C]) : readReg s off = 0 := by
  unfold readReg
  split <;> simp_all

/-- The value of a read, one condition per named offset. -/
theorem readReg_eq (s : State) (off : Nat) :
    readReg s off =
      if off = 0x04 then s.status
      else if off = 0x08 then s.srcAddr
      else if off = 0x0C then s.srcLen
      else if off = 0x10 then s.keyAddr
      else if off = 0x14 then s.keyLen
      else if off = 0x18 then s.dstAddr
      else if off = 0x1C then s.outLen
      else 0 := by
  split_ifs
  case neg => exact readReg_of_unnamed (by simp_all)
  all_goals subst off; rfl

/-- The effect of a write, one condition per offset that has one: CMD executes the word, the argument
registers take it, and `setReg_of_not_argument` is the rest. -/
theorem writeReg_eq (s : State) (off : Nat) (v : Word) :
    writeReg s off v =
      if off = 0x00 then execute v s.countCommand
      else if off = 0x08 then .next { s with srcAddr := v }
      else if off = 0x0C then .next { s with srcLen := v }
      else if off = 0x10 then .next { s with keyAddr := v }
      else if off = 0x14 then .next { s with keyLen := v }
      else if off = 0x18 then .next { s with dstAddr := v }
      else if off = 0x1C then .next { s with outLen := v }
      else .next s := by
  unfold writeReg
  split_ifs
  case neg => rw [setReg_of_not_argument (by simp_all)]
  all_goals subst off; rfl

/-! ### The statements -/

/-- Settles O7: the step at a read is the admission test, then the value of the offset, which does not
depend on the host's steps still to come. -/
theorem registerReadDeliversItsValue : Obligations.RegisterReadDeliversItsValue := by
  intro s off width rest hs
  refine ⟨fun ha => ?_, fun hna => ?_⟩
  · rw [step_readReg_of_admitted hs (admittedAccess_iff.2 ha), readReg_eq]
    rfl
  · exact step_readReg_of_not_admitted hs (mt admittedAccess_iff.1 hna)

/-- Settles O8: the step at a write is the admission test, then the effect of the offset at the state with
the write off the stream. -/
theorem registerWriteEffects : Obligations.RegisterWriteEffects := by
  intro s off width v rest hs
  refine ⟨fun ha => ?_, fun hna => ?_⟩
  · rw [step_writeReg_of_admitted hs (admittedAccess_iff.2 ha), writeReg_eq]
    rfl
  · exact step_writeReg_of_not_admitted hs (mt admittedAccess_iff.1 hna)

end Sys2Proof.Machine
end

section
/-! The errors of a command word (60_exceptions.md rules R220 to R228): what executing one of the nine words
is, the check phase of every command in the global priority, then the statements. -/

namespace Sys2Proof.Machine

/-! ### A word of the nine -/

/-- The nine words are words of commands (30_encoding.md rule R73). -/
theorem exists_encode_of_mem {w : Word}
    (h : w ∈ ([0x01, 0x02, 0x03, 0x04, 0x11, 0x12, 0x13, 0x14, 0x21] : List Word)) :
    ∃ i, encode i = w := by
  simp only [List.mem_cons, List.not_mem_nil, or_false] at h
  obtain rfl | rfl | rfl | rfl | rfl | rfl | rfl | rfl | rfl := h
  exacts [⟨.dinit, rfl⟩, ⟨.dupdate, rfl⟩, ⟨.dfinal, rfl⟩, ⟨.digest, rfl⟩, ⟨.minit, rfl⟩,
    ⟨.mupdate, rfl⟩, ⟨.mfinal, rfl⟩, ⟨.mac, rfl⟩, ⟨.kdf, rfl⟩]

/-- Executing the word of a command runs the command. -/
theorem execute_encode (i : Instr) (s : State) : execute (encode i) s = exec i s := by
  rw [execute, decode_encode]

/-- A command leaves in ERR what its check phase answers: the first failing check, or success. -/
theorem exec_err (i : Instr) (s : State) :
    ∃ t, exec i s = .next t ∧ t.err = firstFailing (checksOf i s) := by
  cases hc : firstFailing (checksOf i s) with
  | none => exact ⟨_, exec_of_passing hc, rfl⟩
  | some e => exact ⟨_, exec_of_failing hc, rfl⟩

/-! ### The causes: when each check fails -/

/-- A check phase as a chain of causes: the first check that fails gives its code (rule R228). -/
theorem firstFailing_cons (ok : Bool) (code : ErrorCode) (rest : List Check) :
    firstFailing ((ok, code) :: rest) = if ok = false then some code else firstFailing rest := by
  cases ok <;> rfl

/-- A joint check of several ranges is a check of each: the code is the same whichever fails (rule R228). -/
theorem firstFailing_and (a b : Bool) (code : ErrorCode) (rest : List Check) :
    firstFailing ((a && b, code) :: rest) = firstFailing ((a, code) :: (b, code) :: rest) := by
  cases a <;> rfl

@[simp] theorem firstFailing_nil : firstFailing [] = none := rfl

theorem inRange_eq_false_iff {size : Nat} {a : Word} {n : Nat} :
    inRange size a n = false ↔ size < a.toNat + n := by simp [inRange]

section
variable {s : State}

/-- OUT_OF_RANGE, by the source range (rule R223). -/
@[simp] theorem srcInRange_eq_false_iff :
    s.srcInRange = false ↔ s.params.memSize < s.srcAddr.toNat + s.srcLen.toNat :=
  inRange_eq_false_iff

/-- OUT_OF_RANGE, by the key range (rule R223). -/
@[simp] theorem keyInRange_eq_false_iff :
    s.keyInRange = false ↔ s.params.memSize < s.keyAddr.toNat + s.keyLen.toNat :=
  inRange_eq_false_iff

/-- OUT_OF_RANGE, by the destination range (rule R223). -/
@[simp] theorem dstInRange_eq_false_iff {n : Nat} :
    s.dstInRange n = false ↔ s.params.memSize < s.dstAddr.toNat + n :=
  inRange_eq_false_iff

/-- BAD_LENGTH (rule R224). -/
theorem outLengthLegal_eq_false_iff : s.outLengthLegal = false ↔ s.outLen.getLsbD 31 = true := by
  rw [← Bool.not_eq_true, outLengthLegal_iff_bit, Bool.not_eq_false]

end

/-- LENGTH_OVERFLOW (rule R227). -/
theorem lenOK_eq_false_iff {c : Ctx} {n : Nat} :
    lenOK c n = false ↔ 2 ^ 64 ≤ (msgLen c + n) * 8 := by
  rw [← Bool.not_eq_true, lenOK_iff_bits, Nat.not_lt]

/-- KDF checks its ranges for a legal length only, so with OUT_LEN read unsigned (rule R192). -/
theorem firstFailing_kdf_unsigned (s : State) :
    firstFailing (checksOf .kdf s) =
      firstFailing [(s.outLengthLegal, .badLength), (s.srcInRange, .outOfRange),
        (s.dstInRange s.outLen.toNat, .outOfRange)] := by
  rw [checksOf, firstFailing_cons, firstFailing_and, firstFailing_cons s.outLengthLegal]
  cases hlegal : s.outLengthLegal with
  | false => rfl
  | true => rw [outCount_eq hlegal]

/-! ### The global priority -/

/-- Settles O25: a word outside the nine takes the error entry of ILLEGAL_COMMAND. A word of the nine leaves
what its command's check phase answers, and each check phase is the chain of rule R228 with the causes of the
other commands left out. -/
theorem errorCausesInPriority : Obligations.ErrorCausesInPriority := by
  intro w s
  by_cases hw : w ∈ ([0x01, 0x02, 0x03, 0x04, 0x11, 0x12, 0x13, 0x14, 0x21] : List Word)
  · obtain ⟨i, rfl⟩ := exists_encode_of_mem hw
    obtain ⟨t, ht, herr⟩ := exec_err i s
    refine ⟨t, (execute_encode i s).trans ht, ?_⟩
    rw [if_neg (not_not.2 hw), herr]
    cases i
    case dinit => simp [checksOf, encode]
    case dupdate | mupdate => simp [checksOf, encode, firstFailing_cons, lenOK_eq_false_iff]
    case dfinal | mfinal => simp [checksOf, encode, firstFailing_cons, digestBytes]
    case minit => simp [checksOf, encode, firstFailing_cons]
    case digest | mac =>
      simp only [checksOf, firstFailing_and]
      simp [encode, firstFailing_cons, digestBytes, ite_or]
    case kdf =>
      simp [firstFailing_kdf_unsigned, encode, firstFailing_cons, outLengthLegal_eq_false_iff, ite_or]
  · obtain ⟨_, hillegal⟩ := decode_error_of_not_mem hw
    exact ⟨_, execute_of_illegal hillegal s, (if_pos hw).symm⟩

/-! ### The error entry -/

/-- An executed word that leaves an error has taken an error entry. -/
theorem execute_error {w : Word} {s t : State} (h : execute w s = .next t) (herr : t.err ≠ none) :
    ∃ e, t = s.errorEntry e := by
  obtain ⟨_, -, ht⟩ | ⟨i, -, ht⟩ := execute_cases h
  · exact ⟨.illegalCommand, by simpa using ht⟩
  · obtain ⟨e, -, rfl⟩ := exec_error ht.symm herr
    exact ⟨e, rfl⟩

/-- Settles O26: the error entry is the whole change, and the error it leaves is its own. -/
theorem errorsArePrecise : Obligations.ErrorsArePrecise := by
  intro w s t e h herr
  obtain ⟨e', rfl⟩ := execute_error h (by simp [herr])
  obtain rfl : e' = e := by simpa using herr
  rfl

end Sys2Proof.Machine
end

section
/-! The stream law (41_digest.md rules R133 to R139): what a context that holds a message gives, Absorb byte by
byte, the final blocks that Finish folds, and the two forms of the length field. -/

namespace Sys2Proof.Machine

/-! ### A context that holds a message -/

section
variable {p : Params} {c : Ctx} {m : Bytes}

/-- The pending bytes are what the whole blocks leave of the message, so fewer than 64 (rules R32, R138). -/
theorem CtxHolds.pending_eq (h : CtxHolds p c m) : c.pending = m.length % 64 := by
  rw [Ctx.pending, h.buf, List.length_drop]
  omega

theorem CtxHolds.pending_lt (h : CtxHolds p c m) : c.pending < 64 := by
  rw [h.pending_eq]
  omega

/-- MsgLen is the length of the message (rule R133). -/
theorem CtxHolds.msgLen_eq (h : CtxHolds p c m) : msgLen c = m.length := by
  rw [msgLen, h.nblocks, h.pending_eq]
  omega

/-- A fresh context holds the empty message (rule R131). -/
theorem ctxHolds_ctxInit (p : Params) : CtxHolds p (ctxInit p) [] := ⟨rfl, rfl, rfl⟩

/-- A fresh context that has absorbed a message holds it. -/
theorem ctxHolds_absorb_ctxInit (p : Params) {m : Bytes} (hm : m.length ≤ 2 ^ 61 - 1) :
    CtxHolds p (absorb p (ctxInit p) m) m :=
  (ctxHolds_iff p _ m (by omega)).2 rfl

/-- A context holds no other content than the one Absorb gives it. -/
theorem CtxHolds.eq_absorb (h : CtxHolds p c m) (hm : m.length ≤ 2 ^ 61 - 1) :
    c = absorb p (ctxInit p) m :=
  (ctxHolds_iff p c m (by omega)).1 h

/-- Absorb appends its data to the message held (rule R138). -/
theorem CtxHolds.absorb (h : CtxHolds p c m) {data : Bytes}
    (hlen : m.length + data.length ≤ 2 ^ 61 - 1) :
    CtxHolds p (absorb p c data) (m ++ data) := by
  rw [h.eq_absorb (by omega), absorb_absorb p m data (by simp [ctxInit_pending])]
  exact ctxHolds_absorb_ctxInit p (by simpa using hlen)

/-- Finishing a context that holds a message gives the message's one-shot digest (rules R137, R138). -/
theorem CtxHolds.finish_eq (h : CtxHolds p c m) (hm : m.length ≤ 2 ^ 61 - 1) :
    finish p c = hashFn p m := by
  rw [h.eq_absorb hm, hashFn]

/-- Chunks absorbed one after the other append their concatenation to the message held. -/
theorem CtxHolds.foldl_absorb (h : CtxHolds p c m) {chunks : List Bytes}
    (hlen : m.length + chunks.flatten.length ≤ 2 ^ 61 - 1) :
    CtxHolds p (chunks.foldl (Machine.absorb p) c) (m ++ chunks.flatten) := by
  induction chunks generalizing c m with
  | nil => simpa using h
  | cons d ds ih =>
    simp only [List.flatten_cons, List.length_append] at hlen
    have hd : CtxHolds p (Machine.absorb p c d) (m ++ d) := h.absorb (by omega)
    simpa using ih hd (by simp only [List.length_append]; omega)

end

/-- Settles O50: a fresh context holds the empty message, and each chunk is appended to what is held. -/
theorem streamingEqualsOneShot : Obligations.StreamingEqualsOneShot := by
  intro p chunks hlen
  have hholds := (ctxHolds_ctxInit p).foldl_absorb (chunks := chunks) (by simpa using hlen)
  exact ⟨hholds, hholds.finish_eq hlen⟩

/-- Settles O51: the success clause of each command's rule, with the stream law of its context function. -/
theorem digestCommandsStream : Obligations.DigestCommandsStream := by
  intro s m
  refine ⟨?dinit, fun hready hholds hsrc hlen => ?dupdate, fun hready hholds hlen hdst => ?dfinal⟩
  case dinit => exact ⟨_, exec_dinit s, rfl, ctxHolds_ctxInit s.params⟩
  case dupdate =>
    obtain ⟨hok, -⟩ := dupdateRule.2 s
    exact ⟨_, hok hready hsrc (by rwa [hholds.msgLen_eq]), hready, rfl,
      hholds.absorb (by simpa using hlen)⟩
  case dfinal =>
    obtain ⟨hok, -⟩ := dfinalRule.2 s
    exact ⟨_, hok hready hdst, rfl, rfl, by rw [hholds.finish_eq hlen]⟩

/-! ### Absorb byte by byte -/

theorem absorb_nil (p : Params) {c : Ctx} (h : c.pending < 64) : absorb p c [] = c := by
  have hq : c.buf.length / 64 = 0 := Nat.div_eq_of_lt h
  simp [absorb_eq p [] h, hq, cfn]

/-- One byte absorbed joins the pending ones, and the 64th compresses the block. -/
theorem absorb_singleton (p : Params) {c : Ctx} (b : Byte) (h : c.pending < 64) :
    absorb p c [b] = absorbByte p c b := by
  have hlen : (c.buf ++ [b]).length = c.pending + 1 := by simp [Ctx.pending]
  rw [absorb_eq p [b] h, absorbByte, hlen, blockBytes]
  by_cases hfull : c.pending + 1 = 64
  · rw [if_pos hfull, hfull, foldBlock, cfn_one _ _ (hlen.trans hfull),
      List.drop_of_length_le (by omega)]
    rfl
  · rw [if_neg hfull, Nat.div_eq_of_lt (by omega)]
    simp [cfn]

/-- Settles O49: the data is absorbed from its first byte on, since Absorb of two chunks is Absorb of both. -/
theorem absorbIsByteSerial : Obligations.AbsorbIsByteSerial := by
  intro p c data h
  induction data generalizing c with
  | nil => exact absorb_nil p h
  | cons b bs ih =>
    calc absorb p c (b :: bs)
        = absorb p (absorb p c [b]) bs := (absorb_absorb p [b] bs h).symm
      _ = bs.foldl (absorbByte p) (absorb p c [b]) := ih _ (absorb_pending_lt p [b] h)
      _ = (b :: bs).foldl (absorbByte p) c := by rw [absorb_singleton p b h, List.foldl_cons]

/-! ### The final blocks -/

/-- The padding of a message of `n` bytes: the marker, the zeros up to eight bytes short of a block boundary
and the 64-bit bit length (rule R139). `finish_eq_cfn` ties it to Finish. -/
def padding (n : Nat) : Bytes :=
  [padMarker] ++ zeros ((55 + 64 - n % 64) % 64) ++ be64 (BitVec.ofNat 64 (8 * n))

theorem zeros_add (a b : Nat) : zeros (a + b) = zeros a ++ zeros b :=
  List.replicate_add a b 0

/-- The padding fills the last block of the message, or that and one more. -/
theorem padding_length (n : Nat) :
    n % 64 + (padding n).length = 64 * if n % 64 ≤ 55 then 1 else 2 := by
  simp only [padding, List.length_append, List.length_singleton, zeros_length, be64_length]
  split <;> omega

theorem msgBits_eq (c : Ctx) : msgBits c = 8 * msgLen c := by
  rw [msgBits, msgLen]
  omega

theorem cfn_two (k : Vector Word 64) (v : Vector Word 8) {a b : Bytes} (ha : a.length = 64)
    (hb : b.length = 64) : cfn k 2 v (a ++ b) = cf k (cf k v a) b := by
  rw [cfn_add k 1 1, cfn_append_right k 1 v b ha.ge, cfn_one k v ha,
    List.drop_left' (by omega), cfn_one k _ hb]

/-- Finish folds the pending bytes and the padding, in one block or in two (rule R136). -/
theorem finish_eq_cfn (p : Params) {c : Ctx} (h : c.pending < 64) :
    finish p c = serialise
      (cfn p.ktab (if c.pending ≤ 55 then 1 else 2) c.v (c.buf ++ padding (msgLen c))) := by
  have hmod : msgLen c % 64 = c.pending := by rw [msgLen]; omega
  have hbuf : c.buf.length = c.pending := rfl
  rw [finish, msgBits_eq, padding, hmod, blockBytes]
  by_cases h55 : c.pending ≤ 55
  · have hk : (55 + 64 - c.pending) % 64 = 55 - c.pending := by omega
    rw [if_pos (by omega), if_pos h55, hk, cfn_one _ _ (by simp; omega)]
    simp
  · have hk : (55 + 64 - c.pending) % 64 = (63 - c.pending) + 56 := by omega
    rw [if_neg (by omega), if_neg h55, hk, zeros_add, ← cfn_two _ _ (by simp; omega) (by simp)]
    simp

/-- The digest is the fold of the whole message and its padding (rule R139). -/
theorem hashFn_eq_cfn (p : Params) {m : Bytes} (hm : m.length ≤ 2 ^ 61 - 1) :
    hashFn p m = serialise (cfn p.ktab (m.length / 64 + if m.length % 64 ≤ 55 then 1 else 2) p.iv
      (m ++ padding m.length)) := by
  have hholds := ctxHolds_absorb_ctxInit p hm
  have hle : 64 * (m.length / 64) ≤ m.length := by omega
  rw [← hholds.finish_eq hm, finish_eq_cfn p hholds.pending_lt, hholds.msgLen_eq, hholds.pending_eq,
    hholds.buf, hholds.v, cfn_add, cfn_append_right _ _ _ _ hle, List.drop_append_of_le_length hle]

/-- Settles O52: Finish folds the final blocks after the whole blocks of the message. -/
theorem digestIsOfThePaddedMessage : Obligations.DigestIsOfThePaddedMessage := by
  intro p m hm
  have hpadded : m ++ [0x80] ++ zeros ((55 + 64 - m.length % 64) % 64) ++
      be64 (BitVec.ofNat 64 (8 * m.length)) = m ++ padding m.length := by
    simp [padding, padMarker]
  have hlen : (m ++ padding m.length).length =
      64 * (m.length / 64 + if m.length % 64 ≤ 55 then 1 else 2) := by
    rw [List.length_append, Nat.mul_add, ← padding_length]
    omega
  simp only [hpadded]
  refine ⟨hlen, ?_⟩
  rw [hashFn_eq_cfn p hm, hlen, Nat.mul_div_cancel_left _ (by decide)]

/-! ### The length field -/

/-- The length field as its high and its low word. -/
theorem be64_ofNat (n : Nat) :
    be64 (BitVec.ofNat 64 n) = be32 (BitVec.ofNat 32 (n / 2 ^ 32)) ++ be32 (BitVec.ofNat 32 n) := by
  have hhigh : (BitVec.ofNat 64 n).extractLsb' 32 32 = BitVec.ofNat 32 (n / 2 ^ 32) := by
    apply BitVec.eq_of_toNat_eq
    simp only [BitVec.extractLsb'_toNat, BitVec.toNat_ofNat, Nat.shiftRight_eq_div_pow]
    omega
  have hlow : (BitVec.ofNat 64 n).extractLsb' 0 32 = BitVec.ofNat 32 n := by
    apply BitVec.eq_of_toNat_eq
    simp only [BitVec.extractLsb'_toNat, BitVec.toNat_ofNat, Nat.shiftRight_zero]
    omega
  rw [be64, hhigh, hlow]

/-- Settles O53: the bit length shifted right by 32 is NBLOCKS shifted right by 23, as 512 is 2^9 and the
pending bits do not reach bit 9. -/
theorem lengthFieldFormsAgree : Obligations.LengthFieldFormsAgree := by
  intro c _ hpending
  have hhigh : msgBits c / 2 ^ 32 = c.nblocks.toNat >>> 23 := by
    rw [msgBits, Nat.shiftRight_eq_div_pow]
    omega
  have hlow : msgBits c = c.nblocks.toNat <<< 9 + c.pending <<< 3 := by
    rw [msgBits, Nat.shiftLeft_eq, Nat.shiftLeft_eq]
    omega
  rw [be64_ofNat, hhigh, hlow]

end Sys2Proof.Machine
end

section
/-! The laws of the MAC (42_mac.md rules R160 to R169): the toggle, the stream law of its commands, and keys
that differ in trailing zeros alone. -/

namespace Sys2Proof.Machine

/-! ### The toggle and the nested digest -/

/-- A key block XORed twice with one byte is the key block. -/
theorem xorBlock_xorBlock (kb : Vector Byte 64) (c : Byte) : xorBlock (xorBlock kb c) c = kb := by
  have hcancel (b : Byte) : b ^^^ c ^^^ c = b := by
    rw [BitVec.xor_assoc, BitVec.xor_self, BitVec.xor_zero]
  simp [xorBlock, Function.comp_def, hcancel]

/-- Settles O55: the toggle is one XOR, of the inner pad with the outer pad. -/
theorem toggleGivesTheOuterPad : Obligations.ToggleGivesTheOuterPad := fun p key kb =>
  ⟨toggle_keyBlock p key, xorBlock_xorBlock kb (ipad ^^^ opad)⟩

/-- Settles O56: the run of the three commands' functions is `macFn`, which is the formula. -/
theorem macIsTheNestedDigest : Obligations.MacIsTheNestedDigest := macOneShot_eq_macFn

/-! ### The stream law of the commands -/

/-- The inner context of a new MAC holds the key block (rule R163). -/
theorem ctxHolds_macInner (p : Params) (kb : Vector Byte 64) :
    CtxHolds p (macInner p kb) kb.toList :=
  ctxHolds_absorb_ctxInit p (by simp)

/-- Finishing the MAC of an inner context that holds the key block and the data gives their nested digest
(rules R160, R165). -/
theorem macFinish_of_holds {p : Params} {inner : Ctx} {key data : Bytes}
    (h : CtxHolds p inner ((keyBlock p key).toList ++ data)) (hlen : 64 + data.length ≤ 2 ^ 61 - 1) :
    macFinish p inner (keyBlock p key) = macFn p data key := by
  have hinner : finish p inner = hashFn p ((keyBlock p key).toList ++ data) :=
    h.finish_eq (by simpa using hlen)
  simp only [macFinish, finish_absorb_absorb, toggle_keyBlock, hinner, macFn]
  rfl

/-- Settles O57: the success clause of each command's rule, with what the inner context then holds. -/
theorem macCommandsStream : Obligations.MacCommandsStream := by
  intro s key data
  refine ⟨fun hkey => ?minit, fun hready _ hholds hsrc hlen => ?mupdate,
    fun hready hkb hholds hlen hdst => ?mfinal⟩
  case minit =>
    obtain ⟨hok, -⟩ := minitRule.2 s
    refine ⟨_, hok hkey, rfl, rfl, rfl, ?_⟩
    simp only [← macInner_eq]
    exact ctxHolds_macInner _ _
  case mupdate =>
    obtain ⟨hok, -⟩ := mupdateRule.2 s
    have hmsg : msgLen s.minner = 64 + data.length := by simp [hholds.msgLen_eq]
    refine ⟨_, hok hready hsrc (by rwa [hmsg]), hready, rfl, rfl, ?_⟩
    rw [← List.append_assoc]
    exact hholds.absorb (by simpa using hlen)
  case mfinal =>
    obtain ⟨hok, -⟩ := mfinalRule.2 s
    refine ⟨_, hok hready hdst, rfl, rfl, ?_⟩
    rw [← macFinish_eq, hkb, macFinish_of_holds (hkb ▸ hholds) hlen]

/-! ### Keys with trailing zeros -/

/-- K0 fills a short key up with zeros, so zeros at its end make no difference (rule R161). -/
theorem k0_append_zeros (p : Params) {key : Bytes} {n : Nat} (h : key.length + n ≤ 64) :
    k0 p (key ++ zeros n) = k0 p key := by
  have hlen : (key ++ zeros n).length = key.length + n := by simp
  have hrest : 64 - key.length = n + (64 - (key.length + n)) := by omega
  rw [← Vector.toList_inj, k0_toList_of_le p (hlen.trans_le h), k0_toList_of_le p (by omega), hlen,
    hrest, zeros_add, List.append_assoc]

/-- Settles O58: the key block and the MAC read the key through K0 alone. -/
theorem zeroExtendedKeysGiveEqualMacs : Obligations.ZeroExtendedKeysGiveEqualMacs := by
  intro p key data n h
  simp only [keyBlock, macFn, k0_append_zeros p h, and_self]

end Sys2Proof.Machine
end

section
/-! The laws of the key stream (43_kdf.md rule R191): the blocks stand one after the other, in counter order,
and a request truncates them. -/

namespace Sys2Proof.Machine

/-- The blocks of `a + b` counters are those of the first `a` followed by those of the next `b`. -/
theorem kdfBlocks_add (p : Params) (secret : Bytes) (a b : Nat) :
    kdfBlocks p secret (a + b) = kdfBlocks p secret a ++
      (List.range b).flatMap fun i => kdfBlock p secret (a + i + 1) := by
  simp [kdfBlocks, List.range_add, List.flatMap_map]

/-- More blocks than a request needs do not change its key stream. -/
theorem kdfFn_eq_take (p : Params) (secret : Bytes) {n q : Nat} (h : n ≤ 32 * q) :
    kdfFn p secret n = (kdfBlocks p secret q).take n := by
  have hq : q = (n + 31) / 32 + (q - (n + 31) / 32) := by omega
  rw [hq, kdfBlocks_add, List.take_append_of_le_length (by rw [kdfBlocks_length]; omega)]
  rfl

/-- Block `c` of the stream stands behind the `c` blocks before it. -/
theorem take_drop_kdfBlocks (p : Params) (secret : Bytes) {c q : Nat} (h : c < q) :
    ((kdfBlocks p secret q).drop (32 * c)).take 32 = kdfBlock p secret (c + 1) := by
  obtain ⟨r, rfl⟩ := Nat.exists_eq_add_of_lt h
  rw [Nat.add_assoc, kdfBlocks_add, List.drop_left' (kdfBlocks_length p secret c),
    List.range_succ_eq_map, List.flatMap_cons]
  exact List.take_left' (kdfBlock_length p secret (c + 1))

/-- Settles O59: each request is the start of the same blocks, and each block is a digest. -/
theorem keyStreamLaws : Obligations.KeyStreamLaws := by
  intro p secret n n' hn _
  refine ⟨kdfFn_length p secret n, ?_, fun c hc hlt => ?_⟩
  · rw [kdfFn_eq_take p secret (n := n') (q := n') (by omega),
      kdfFn_eq_take p secret (n := n) (q := n') (by omega), List.take_take, Nat.min_eq_left hn]
  · obtain ⟨c, rfl⟩ := Nat.exists_eq_add_of_le' hc
    rw [Nat.add_sub_cancel] at hlt ⊢
    rw [kdfFn_eq_take p secret (n := n) (q := n) (by omega), List.drop_take, List.take_take,
      Nat.min_comm, ← List.take_take, take_drop_kdfBlocks p secret (by omega)]
    rfl

end Sys2Proof.Machine
end

section
/-! What a step leaves alone (10_state.md rules R37, R39, 44_host_access.md rules R200 to R204): the frame of a
command, the frame of a quiet host step, and which steps are refused. -/

namespace Sys2Proof.Machine

/-! ### The frame of a command -/

/-- No effect phase writes the parameters or the model's record of the host. -/
theorem effectOf_surroundings (i : Instr) (s : State) :
    (effectOf i s).params = s.params ∧ (effectOf i s).host = s.host ∧
      (effectOf i s).replies = s.replies ∧ (effectOf i s).cmdCount = s.cmdCount := by
  cases i <;> simp [effectOf]

theorem exec_surroundings {i : Instr} {s t : State} (h : exec i s = .next t) :
    t.params = s.params ∧ t.host = s.host ∧ t.replies = s.replies ∧ t.cmdCount = s.cmdCount := by
  obtain ⟨e, -, rfl⟩ | ⟨-, rfl⟩ := exec_next_iff.1 h
  · exact ⟨rfl, rfl, rfl, rfl⟩
  · exact effectOf_surroundings i s

theorem execute_surroundings {w : Word} {s t : State} (h : execute w s = .next t) :
    t.params = s.params ∧ t.host = s.host ∧ t.replies = s.replies ∧ t.cmdCount = s.cmdCount := by
  obtain ⟨_, -, ht⟩ | ⟨i, -, ht⟩ := execute_cases h
  · cases ht
    exact ⟨rfl, rfl, rfl, rfl⟩
  · exact exec_surroundings ht.symm

/-- Settles O31: neither the error entry nor an effect phase reaches them. -/
theorem commandsLeaveTheSurroundings : Obligations.CommandsLeaveTheSurroundings :=
  fun _ _ _ => exec_surroundings

/-- Settles O28: a command is the run of its check phase and its effect phase. -/
theorem everyCommandCompletes : Obligations.EveryCommandCompletes := fun i s => by
  rw [exec_eq_runCommand]
  exact runCommand_next _ _ _

/-! ### The engine beyond its argument registers -/

/-- Two states agree on the parameters, the flags and both contexts: on the engine but for its argument
registers. `hostStep_sameEngine` says which host steps keep it. -/
structure SameEngine (s t : State) : Prop where
  params : t.params = s.params
  err : t.err = s.err
  errSeen : t.errSeen = s.errSeen
  dphase : t.dphase = s.dphase
  dctx : t.dctx = s.dctx
  mphase : t.mphase = s.mphase
  minner : t.minner = s.minner
  keyblock : t.keyblock = s.keyblock

/-- A host step that neither executes a word nor resets keeps the engine, and writes at most one byte of
MEM. -/
theorem hostStep_sameEngine {h : HostStep} {s t : State} (hq : quietStep h = true)
    (ht : hostStep h s = .next t) :
    SameEngine s t ∧
      (t.mem = s.mem ∨ ∃ a b, a < s.params.memSize ∧ t.mem = s.mem.write a b) := by
  obtain ⟨off, -, rfl⟩ | ⟨v, rfl, -⟩ | ⟨off, v, -, -, rfl⟩ | ⟨a, -, -, rfl⟩ |
    ⟨a, b, -, ha, rfl⟩ | ⟨rfl, -⟩ := hostStep_next ht
  case inr.inl => simp [quietStep] at hq
  case inr.inr.inr.inr.inr => simp [quietStep] at hq
  case inr.inr.inl => exact ⟨by constructor <;> simp, .inl (by simp)⟩
  case inr.inr.inr.inr.inl =>
    exact ⟨⟨rfl, rfl, rfl, rfl, rfl, rfl, rfl, rfl⟩, .inr ⟨a, b, ha, rfl⟩⟩
  all_goals exact ⟨⟨rfl, rfl, rfl, rfl, rfl, rfl, rfl, rfl⟩, .inl rfl⟩

/-- Settles O11: taking a step off the stream and performing a quiet one both keep the engine. -/
theorem quietHostStepsLeaveTheEngine : Obligations.QuietHostStepsLeaveTheEngine := by
  intro s t h rest hhost hq hstep
  rw [step_host hhost] at hstep
  obtain ⟨⟨hp, he, hes, hdp, hdc, hmp, hmi, hkb⟩, -⟩ := hostStep_sameEngine hq hstep
  exact ⟨he, hes, hdp, hdc, hmp, hmi, hkb, hp⟩

/-! ### The stream and the position -/

/-- No host step adds to the stream or takes from it: the step itself is taken off before (rule R65). -/
theorem hostStep_host {h : HostStep} {s t : State} (ht : hostStep h s = .next t) :
    t.host = s.host := by
  obtain ⟨off, -, rfl⟩ | ⟨v, -, hx⟩ | ⟨off, v, -, -, rfl⟩ | ⟨a, -, -, rfl⟩ | ⟨a, b, -, -, rfl⟩ |
    ⟨-, rfl⟩ := hostStep_next ht
  case inr.inl =>
    obtain ⟨-, hhost, -⟩ := execute_surroundings hx
    exact hhost
  case inr.inr.inl => exact setReg_host s off v
  all_goals rfl

/-- A CMD write is one position of the command stream, whatever its word (rule R37). -/
theorem hostStep_cmdWrite_cmdCount {w : Word} {s t : State}
    (ht : hostStep (.writeReg 0x00 32 w) s = .next t) : t.cmdCount = s.cmdCount + 1 := by
  obtain ⟨-, -, -, hcount⟩ := execute_surroundings (w := w) (s := s.countCommand) ht
  exact hcount

/-- No other host step moves the position (rule R37); that reset does not is the model's choice. -/
theorem hostStep_cmdCount_of_not_cmdWrite {h : HostStep} {s t : State}
    (ht : hostStep h s = .next t) (hne : ∀ w, h ≠ .writeReg 0x00 32 w) :
    t.cmdCount = s.cmdCount := by
  obtain ⟨off, -, rfl⟩ | ⟨v, rfl, -⟩ | ⟨off, v, -, -, rfl⟩ | ⟨a, -, -, rfl⟩ | ⟨a, b, -, -, rfl⟩ |
    ⟨-, rfl⟩ := hostStep_next ht
  case inr.inl => exact absurd rfl (hne v)
  case inr.inr.inl => exact setReg_cmdCount s off v
  all_goals rfl

/-- Settles O5: the stream and the position after the host step that a step performs. -/
theorem positionCountsCmdWrites : Obligations.PositionCountsCmdWrites := by
  intro s t h rest hhost hstep
  rw [step_host hhost] at hstep
  refine ⟨hostStep_host hstep, ?cmdWrite, ?other⟩
  case cmdWrite =>
    rintro ⟨w, rfl⟩
    exact hostStep_cmdWrite_cmdCount (s := s.withHost rest) hstep
  case other => exact hostStep_cmdCount_of_not_cmdWrite (s := s.withHost rest) hstep

/-! ### Accesses to MEM and refusals -/

section
variable {s : State} {a : Nat} {b : Byte} {rest : List HostStep}

theorem step_readMem_inside (hs : s.host = .readMem a :: rest) (ha : a < s.params.memSize) :
    step s = .next ((s.withHost rest).deliver (.mem a (s.mem.read a))) :=
  (step_host hs).trans (if_pos ha)

theorem step_readMem_outside (hs : s.host = .readMem a :: rest) (ha : s.params.memSize ≤ a) :
    step s = .refused (.hostMemAccessOutside a) :=
  (step_host hs).trans (if_neg (Nat.not_lt.2 ha))

theorem step_writeMem_inside (hs : s.host = .writeMem a b :: rest) (ha : a < s.params.memSize) :
    step s = .next { s with host := rest, mem := s.mem.write a b } :=
  (step_host hs).trans (if_pos ha)

theorem step_writeMem_outside (hs : s.host = .writeMem a b :: rest) (ha : s.params.memSize ≤ a) :
    step s = .refused (.hostMemAccessOutside a) :=
  (step_host hs).trans (if_neg (Nat.not_lt.2 ha))

end

/-- Settles O10: the bound of each access, and the laws of a byte write on a canonical MEM. -/
theorem hostMemAccess : Obligations.HostMemAccess := fun s a b _ =>
  ⟨step_readMem_inside,
    fun hs ha hwf => ⟨s.mem.write a b, step_writeMem_inside hs ha, memory_read_write_eq hwf a b,
      fun _ hx => memory_read_write_ne b hx⟩,
    step_readMem_outside, step_writeMem_outside⟩

/-- An executed word answers a next state: its error entry or its command's. -/
theorem execute_next (w : Word) (s : State) : ∃ t, execute w s = .next t := by
  obtain ⟨_, -, ho⟩ | ⟨i, -, ho⟩ := execute_cases (w := w) (s := s) rfl
  · exact ⟨_, ho⟩
  · obtain ⟨t, ht⟩ := everyCommandCompletes i s
    exact ⟨t, ho.trans ht⟩

/-- An admitted register write answers a next state, at CMD that of the executed word. -/
theorem writeReg_next (s : State) (off : Nat) (v : Word) : ∃ t, writeReg s off v = .next t := by
  unfold writeReg
  split
  · exact execute_next v _
  · exact ⟨_, rfl⟩

/-- Settles O29: each kind of host step goes on under its admission condition and is refused without it. -/
theorem onlyHostAccessesAreRefused : Obligations.OnlyHostAccessesAreRefused := by
  intro s
  cases hs : s.host with
  | nil => exact .inl ⟨s, step_idle hs⟩
  | cons h rest =>
    cases h with
    | readReg off width =>
      by_cases ha : admittedAccess off width = true
      · exact .inl ⟨_, step_readReg_of_admitted hs ha⟩
      · exact .inr (.inl ⟨off, width, rest, .inl rfl, mt admittedAccess_iff.2 ha,
          step_readReg_of_not_admitted hs ha⟩)
    | writeReg off width v =>
      by_cases ha : admittedAccess off width = true
      · obtain ⟨t, ht⟩ := writeReg_next (s.withHost rest) off v
        exact .inl ⟨t, (step_writeReg_of_admitted hs ha).trans ht⟩
      · exact .inr (.inl ⟨off, width, rest, .inr ⟨v, rfl⟩, mt admittedAccess_iff.2 ha,
          step_writeReg_of_not_admitted hs ha⟩)
    | readMem a =>
      obtain ha | ha := Nat.lt_or_ge a s.params.memSize
      · exact .inl ⟨_, step_readMem_inside hs ha⟩
      · exact .inr (.inr ⟨a, rest, .inl rfl, ha, step_readMem_outside hs ha⟩)
    | writeMem a b =>
      obtain ha | ha := Nat.lt_or_ge a s.params.memSize
      · exact .inl ⟨_, step_writeMem_inside hs ha⟩
      · exact .inr (.inr ⟨a, rest, .inr ⟨b, rfl⟩, ha, step_writeMem_outside hs ha⟩)
    | reset => exact .inl ⟨_, step_host hs⟩

end Sys2Proof.Machine
end

section
/-! The invariants (10_state.md sections 3 and 4, 41_digest.md rule R134): both contexts under one condition on
a phase and a context, what each kind of step does to it, and the messages that READY contexts hold. -/

namespace Sys2Proof.Machine

/-! ### One context -/

/-- What the machine invariant says of a context and its phase: fewer than 64 bytes pending, within the length
limit while READY, zero otherwise. `machineInv_iff` ties it to the invariant. -/
structure CtxInv (ph : Phase) (c : Ctx) : Prop where
  pending : c.pending < 64
  length : ph = .ready → msgLen c ≤ 2 ^ 61 - 1
  zero : ph ≠ .ready → c = ctxZero

theorem CtxInv.of_ready {c : Ctx} (hpending : c.pending < 64) (hlen : msgLen c ≤ 2 ^ 61 - 1) :
    CtxInv .ready c :=
  ⟨hpending, fun _ => hlen, fun h => absurd rfl h⟩

theorem ctxInv_ctxZero {ph : Phase} (h : ph ≠ .ready) : CtxInv ph ctxZero :=
  ⟨by simp [ctxZero_pending], fun hr => absurd hr h, fun _ => rfl⟩

/-- A context that holds a message within the limit meets the condition of READY. -/
theorem CtxHolds.ctxInv {p : Params} {c : Ctx} {m : Bytes} (h : CtxHolds p c m)
    (hm : m.length ≤ 2 ^ 61 - 1) : CtxInv .ready c :=
  CtxInv.of_ready h.pending_lt (h.msgLen_eq.trans_le hm)

/-- Absorb under the length check keeps the condition (rules R134, R135). -/
theorem CtxInv.absorb {p : Params} {ph : Phase} {c : Ctx} {data : Bytes} (h : CtxInv ph c)
    (hlen : msgLen c + data.length ≤ 2 ^ 61 - 1) : CtxInv .ready (absorb p c data) :=
  CtxInv.of_ready (absorb_pending_lt p data h.pending)
    (by rwa [absorb_msgLen p data h.pending (lenOK_iff.2 hlen)])

theorem machineInv_iff {s : State} :
    MachineInv s ↔
      (s.params.wellFormed = true ∧ s.mem.wf = true ∧ s.mem.below s.params.memSize = true) ∧
        CtxInv s.dphase s.dctx ∧ CtxInv s.mphase s.minner ∧
        (s.mphase ≠ .ready → s.keyblock = Vector.replicate 64 0) ∧
        (s.err ≠ none → s.errSeen = true) := by
  constructor
  · rintro ⟨hp, hwf, hbelow, hdp, hmp, hdl, hml, hdz, hmz, herr⟩
    exact ⟨⟨hp, hwf, hbelow⟩, ⟨hdp, hdl, hdz⟩, ⟨hmp, hml, fun h => (hmz h).1⟩,
      fun h => (hmz h).2, herr⟩
  · rintro ⟨⟨hp, hwf, hbelow⟩, ⟨hdp, hdl, hdz⟩, ⟨hmp, hml, hmz⟩, hkb, herr⟩
    exact ⟨hp, hwf, hbelow, hdp, hmp, hdl, hml, hdz, fun h => ⟨hmz h, hkb h⟩, herr⟩

/-! ### Launch and the length limit -/

theorem machineInv_launch {p : Params} {m : Memory} (steps : List HostStep)
    (hp : p.wellFormed = true) (hwf : m.wf = true) (hbelow : m.below p.memSize = true) :
    MachineInv (State.launch p m steps) :=
  machineInv_iff.2 ⟨⟨hp, hwf, hbelow⟩, ctxInv_ctxZero Phase.noConfusion,
    ctxInv_ctxZero Phase.noConfusion, fun _ => rfl, fun h => absurd rfl h⟩

/-- With no context READY no message is held. -/
theorem holdsMessages_of_unready {s : State} (hd : s.dphase ≠ .ready) (hm : s.mphase ≠ .ready) :
    HoldsMessages s :=
  ⟨fun h => absurd h hd, fun h => absurd h hm⟩

theorem holdsMessages_launch (p : Params) (m : Memory) (steps : List HostStep) :
    HoldsMessages (State.launch p m steps) :=
  holdsMessages_of_unready Phase.noConfusion Phase.noConfusion

/-- Settles O41: reset is a launch with the default parameters and nothing listed in MEM. -/
theorem invariantHoldsAtLaunch : Obligations.InvariantHoldsAtLaunch :=
  ⟨machineInv_launch [] (by decide) memory_wf_nil rfl, holdsMessages_launch _ _ _,
    fun p m steps hp hwf hbelow =>
      ⟨machineInv_launch steps hp hwf hbelow, holdsMessages_launch p m steps⟩⟩

/-- Within the length limit a context has fewer than 2^55 blocks behind it. -/
theorem nblocks_lt_of_msgLen_le {c : Ctx} (h : msgLen c ≤ 2 ^ 61 - 1) :
    c.nblocks.toNat < 2 ^ 55 := by
  rw [msgLen] at h
  omega

/-- Settles O44: the limit in bytes is the check, and bounds the blocks of a READY context. -/
theorem lengthLimitBoundsNblocks : Obligations.LengthLimitBoundsNblocks :=
  ⟨fun _ _ => lenOK_iff, msgBits_eq, fun _ h =>
    ⟨fun hready => nblocks_lt_of_msgLen_le (h.dLength hready),
      fun hready => nblocks_lt_of_msgLen_le (h.mLength hready)⟩⟩

/-! ### The conditions that a passed check phase gives -/

section
variable {s : State}

theorem dupdate_passing (h : firstFailing (checksOf .dupdate s) = none) :
    s.dphase = .ready ∧ msgLen s.dctx + s.srcBytes.length ≤ 2 ^ 61 - 1 := by
  rw [firstFailing_dupdate] at h
  split_ifs at h with hready hsrc hlen
  exact ⟨hready, by simpa [State.srcBytes] using hlen⟩

theorem mupdate_passing (h : firstFailing (checksOf .mupdate s) = none) :
    s.mphase = .ready ∧ msgLen s.minner + s.srcBytes.length ≤ 2 ^ 61 - 1 := by
  rw [firstFailing_mupdate] at h
  split_ifs at h with hready hsrc hlen
  exact ⟨hready, by simpa [State.srcBytes] using hlen⟩

/-- A command that passes its checks has no output, or an output range inside MEM (rule R223). -/
theorem output_passing {i : Instr} (h : firstFailing (checksOf i s) = none) :
    outputBytes i s = [] ∨ s.dstAddr.toNat + outputLength i s ≤ s.params.memSize := by
  have hchecks := firstFailing_eq_none.1 h
  cases i
  case dinit | dupdate | minit | mupdate => exact .inl rfl
  all_goals
    right
    simp only [checksOf, List.forall_mem_cons, Bool.and_eq_true, dstInRange_iff] at hchecks
    simp only [outputLength, hchecks]

/-! ### The invariant over a command -/

/-- An effect phase writes MEM within its output range, so below MEM_SIZE. -/
theorem effectOf_mem_below {i : Instr} (hbelow : s.mem.below s.params.memSize = true)
    (h : firstFailing (checksOf i s) = none) :
    (effectOf i s).mem.below s.params.memSize = true := by
  rw [effectOf_mem]
  obtain hnone | hin := output_passing h
  · rwa [hnone, Memory.writeBytes]
  · exact memory_writeBytes_below hbelow (by rwa [outputBytes_length])

theorem effectOf_digest_ctxInv {i : Instr} (hd : CtxInv s.dphase s.dctx)
    (h : firstFailing (checksOf i s) = none) :
    CtxInv (effectOf i s).dphase (effectOf i s).dctx := by
  cases i
  case dinit => exact (ctxHolds_ctxInit s.params).ctxInv (by simp)
  case dupdate =>
    have habsorb : CtxInv .ready (absorb s.params s.dctx s.srcBytes) :=
      hd.absorb (dupdate_passing h).2
    exact habsorb
  case dfinal => exact ctxInv_ctxZero Phase.noConfusion
  all_goals simpa [effectOf] using hd

theorem effectOf_mac_ctxInv {i : Instr} (hm : CtxInv s.mphase s.minner)
    (h : firstFailing (checksOf i s) = none) :
    CtxInv (effectOf i s).mphase (effectOf i s).minner := by
  cases i
  case minit => exact (ctxHolds_macInner s.params _).ctxInv (by simp)
  case mupdate =>
    have habsorb : CtxInv .ready (absorb s.params s.minner s.srcBytes) :=
      hm.absorb (mupdate_passing h).2
    exact habsorb
  case mfinal => exact ctxInv_ctxZero Phase.noConfusion
  all_goals simpa [effectOf] using hm

/-- KEYBLOCK is zero again after MFINAL, and is set only with MCTX made READY (rules R163, R165). -/
theorem effectOf_keyblock_zero {i : Instr}
    (hkb : s.mphase ≠ .ready → s.keyblock = Vector.replicate 64 0)
    (h : (effectOf i s).mphase ≠ .ready) :
    (effectOf i s).keyblock = Vector.replicate 64 0 := by
  cases i
  case minit | mupdate => exact absurd rfl h
  case mfinal => rfl
  all_goals
    simp only [effectOf, writeMem_mphase, setDigest_mphase] at h
    simpa [effectOf] using hkb h

theorem MachineInv.errorEntry (hinv : MachineInv s) (e : ErrorCode) :
    MachineInv (s.errorEntry e) := by
  obtain ⟨hmem, hd, hm, hkb, -⟩ := machineInv_iff.1 hinv
  exact machineInv_iff.2 ⟨hmem, hd, hm, hkb, fun _ => rfl⟩

theorem MachineInv.success_effectOf {i : Instr} (hinv : MachineInv s)
    (h : firstFailing (checksOf i s) = none) : MachineInv (effectOf i s).success := by
  obtain ⟨⟨hp, hwf, hbelow⟩, hd, hm, hkb, -⟩ := machineInv_iff.1 hinv
  obtain ⟨hparams, -⟩ := effectOf_surroundings i s
  refine machineInv_iff.2 ⟨⟨?wellFormed, ?wf, ?below⟩, effectOf_digest_ctxInv hd h,
    effectOf_mac_ctxInv hm h, effectOf_keyblock_zero hkb, fun herr => absurd rfl herr⟩
  case wellFormed => rwa [success_params, hparams]
  case wf =>
    rw [success_mem, effectOf_mem]
    exact memory_writeBytes_wf hwf _ _
  case below =>
    rw [success_params, hparams]
    exact effectOf_mem_below hbelow h

theorem MachineInv.execute {w : Word} {t : State} (hinv : MachineInv s)
    (h : execute w s = .next t) : MachineInv t := by
  obtain ⟨_, -, ht⟩ | ⟨i, -, ht⟩ := execute_cases h
  · cases ht
    exact hinv.errorEntry _
  · obtain ⟨e, -, rfl⟩ | ⟨hpass, rfl⟩ := exec_next_iff.1 ht.symm
    · exact hinv.errorEntry e
    · exact hinv.success_effectOf hpass

/-! ### The invariant over a step -/

/-- The invariant speaks of MEM and of the engine but for its argument registers. -/
theorem MachineInv.of_sameEngine {t : State} (hinv : MachineInv s) (he : SameEngine s t)
    (hwf : t.mem.wf = true) (hbelow : t.mem.below s.params.memSize = true) : MachineInv t := by
  obtain ⟨⟨hp, -, -⟩, hrest⟩ := machineInv_iff.1 hinv
  rw [machineInv_iff, he.params, he.err, he.errSeen, he.dphase, he.dctx, he.mphase, he.minner,
    he.keyblock]
  exact ⟨⟨hp, hwf, hbelow⟩, hrest⟩

theorem MachineInv.withHost (hinv : MachineInv s) (steps : List HostStep) :
    MachineInv (s.withHost steps) :=
  hinv.of_sameEngine ⟨rfl, rfl, rfl, rfl, rfl, rfl, rfl, rfl⟩ hinv.memCanonical hinv.memBelow

theorem MachineInv.countCommand (hinv : MachineInv s) : MachineInv s.countCommand :=
  hinv.of_sameEngine ⟨rfl, rfl, rfl, rfl, rfl, rfl, rfl, rfl⟩ hinv.memCanonical hinv.memBelow

theorem MachineInv.hostStep {h : HostStep} {t : State} (hinv : MachineInv s)
    (ht : hostStep h s = .next t) : MachineInv t := by
  obtain hq | ⟨v, hx⟩ | rfl := hostStep_quiet_or ht
  · obtain ⟨he, hmem | ⟨a, b, ha, hmem⟩⟩ := hostStep_sameEngine hq ht
    · exact hinv.of_sameEngine he (hmem ▸ hinv.memCanonical) (hmem ▸ hinv.memBelow)
    · exact hinv.of_sameEngine he (hmem ▸ memory_write_wf hinv.memCanonical a b)
        (hmem ▸ memory_write_below hinv.memBelow ha b)
  · exact hinv.countCommand.execute hx
  · cases ht
    exact (machineInv_launch s.host hinv.params hinv.memCanonical hinv.memBelow).of_sameEngine
      ⟨rfl, rfl, rfl, rfl, rfl, rfl, rfl, rfl⟩ hinv.memCanonical hinv.memBelow

end

/-- Settles O42: a step is idle, or a host step taken off the stream, and each kind of host step keeps the
invariant. -/
theorem stepKeepsInvariant : Obligations.StepKeepsInvariant := by
  intro s t hinv hstep
  obtain ⟨-, rfl⟩ | ⟨h, rest, -, ht⟩ := step_next_cases hstep
  · exact hinv
  · exact (hinv.withHost rest).hostStep ht

/-! ### The messages held -/

/-- A READY DCTX holds a message within the limit (41_digest.md rule R138). -/
def HoldsDigest (s : State) : Prop :=
  s.dphase = .ready → ∃ m : Bytes, m.length ≤ 2 ^ 61 - 1 ∧ CtxHolds s.params s.dctx m

/-- A READY MINNER holds the stored key block and data, together within the limit (10_state.md rule R34). -/
def HoldsMac (s : State) : Prop :=
  s.mphase = .ready → ∃ key data : Bytes, s.keyblock = keyBlock s.params key ∧
    64 + data.length ≤ 2 ^ 61 - 1 ∧ CtxHolds s.params s.minner (s.keyblock.toList ++ data)

theorem holdsMessages_iff {s : State} : HoldsMessages s ↔ HoldsDigest s ∧ HoldsMac s :=
  ⟨fun h => ⟨h.digest, h.mac⟩, fun h => ⟨h.1, h.2⟩⟩

section
variable {s : State}

theorem effectOf_holdsDigest {i : Instr} (hd : HoldsDigest s)
    (h : firstFailing (checksOf i s) = none) : HoldsDigest (effectOf i s) := by
  cases i
  case dinit => exact fun _ => ⟨[], by simp, ctxHolds_ctxInit s.params⟩
  case dupdate =>
    intro _
    obtain ⟨hready, hlen⟩ := dupdate_passing h
    obtain ⟨m, -, hholds⟩ := hd hready
    rw [hholds.msgLen_eq] at hlen
    exact ⟨m ++ s.srcBytes, by rwa [List.length_append], hholds.absorb hlen⟩
  case dfinal => exact Phase.noConfusion
  all_goals simpa [effectOf, HoldsDigest] using hd

theorem effectOf_holdsMac {i : Instr} (hm : HoldsMac s)
    (h : firstFailing (checksOf i s) = none) : HoldsMac (effectOf i s) := by
  cases i
  case minit =>
    intro _
    refine ⟨s.keyBytes, [], rfl, by decide, ?_⟩
    rw [List.append_nil]
    exact ctxHolds_macInner s.params _
  case mupdate =>
    intro _
    obtain ⟨hready, hlen⟩ := mupdate_passing h
    obtain ⟨key, data, hkb, -, hholds⟩ := hm hready
    rw [hholds.msgLen_eq] at hlen
    refine ⟨key, data ++ s.srcBytes, hkb, ?_, ?_⟩
    · simp only [List.length_append, Vector.length_toList] at hlen ⊢
      omega
    · rw [← List.append_assoc]
      exact hholds.absorb hlen
  case mfinal => exact Phase.noConfusion
  all_goals simpa [effectOf, HoldsMac] using hm

/-- The messages held are read off the parameters, the phases and the contexts. -/
theorem HoldsMessages.of_sameEngine {t : State} (hholds : HoldsMessages s) (he : SameEngine s t) :
    HoldsMessages t := by
  obtain ⟨hd, hm⟩ := holdsMessages_iff.1 hholds
  rw [holdsMessages_iff, HoldsDigest, HoldsMac, he.params, he.dphase, he.dctx, he.mphase, he.minner,
    he.keyblock]
  exact ⟨hd, hm⟩

theorem HoldsMessages.execute {w : Word} {t : State} (hholds : HoldsMessages s)
    (h : execute w s = .next t) : HoldsMessages t := by
  obtain ⟨hd, hm⟩ := holdsMessages_iff.1 hholds
  obtain ⟨_, -, ht⟩ | ⟨i, -, ht⟩ := execute_cases h
  · cases ht
    exact holdsMessages_iff.2 ⟨hd, hm⟩
  · obtain ⟨e, -, rfl⟩ | ⟨hpass, rfl⟩ := exec_next_iff.1 ht.symm
    · exact holdsMessages_iff.2 ⟨hd, hm⟩
    · exact holdsMessages_iff.2 ⟨effectOf_holdsDigest hd hpass, effectOf_holdsMac hm hpass⟩

theorem HoldsMessages.hostStep {h : HostStep} {t : State} (hholds : HoldsMessages s)
    (ht : hostStep h s = .next t) : HoldsMessages t := by
  obtain hq | ⟨v, hx⟩ | rfl := hostStep_quiet_or ht
  · exact hholds.of_sameEngine (hostStep_sameEngine hq ht).1
  · exact (hholds.of_sameEngine (t := s.countCommand)
      ⟨rfl, rfl, rfl, rfl, rfl, rfl, rfl, rfl⟩).execute hx
  · cases ht
    exact holdsMessages_of_unready Phase.noConfusion Phase.noConfusion

end

/-- Settles O43: as for O42, with the stream law for DUPDATE and MUPDATE. The machine invariant is not
needed: the messages held bound the lengths themselves. -/
theorem stepKeepsContextMessages : Obligations.StepKeepsContextMessages := by
  intro s t _ hholds hstep
  obtain ⟨-, rfl⟩ | ⟨h, rest, -, ht⟩ := step_next_cases hstep
  · exact hholds
  · exact (hholds.of_sameEngine (t := s.withHost rest)
      ⟨rfl, rfl, rfl, rfl, rfl, rfl, rfl, rfl⟩).hostStep ht

end Sys2Proof.Machine
end

section
/-! Isolation (10_state.md rules R34, R43, 20_memory.md rules R56, R63): commands outside MAC streaming and MCTX,
the parameters that no step reads, and contexts that are not READY. -/

namespace Sys2Proof.Machine

/-! ### MCTX and MPHASE -/

section
variable {i : Instr} (hi : i ∉ [Instr.minit, .mupdate, .mfinal]) (s : State) (ph : Phase) (c : Ctx)
  (kb : Vector Byte 64)
include hi

/-- The check phase of a command outside MAC streaming does not read MCTX or MPHASE. -/
theorem checksOf_setMac : checksOf i (s.setMac ph c kb) = checksOf i s := by
  cases i
  case minit | mupdate | mfinal => simp at hi
  all_goals rfl

/-- The effect phase of a command outside MAC streaming neither reads nor writes MCTX or MPHASE. -/
theorem effectOf_setMac : effectOf i (s.setMac ph c kb) = (effectOf i s).setMac ph c kb := by
  cases i
  case minit | mupdate | mfinal => simp at hi
  all_goals rfl

/-- A command outside MAC streaming commutes with any change of MCTX and MPHASE. -/
theorem exec_setMac {t : State} (h : exec i s = .next t) :
    exec i (s.setMac ph c kb) = .next (t.setMac ph c kb) := by
  obtain ⟨e, hfail, rfl⟩ | ⟨hpass, rfl⟩ := exec_next_iff.1 h
  · rw [← checksOf_setMac hi s ph c kb] at hfail
    exact exec_of_failing hfail
  · rw [← checksOf_setMac hi s ph c kb] at hpass
    rw [exec_of_passing hpass, effectOf_setMac hi]
    rfl

/-- A command outside MAC streaming keeps MCTX and MPHASE: the commutation at the values they have. -/
theorem exec_keeps_mac {t : State} (h : exec i s = .next t) :
    t.mphase = s.mphase ∧ t.minner = s.minner ∧ t.keyblock = s.keyblock := by
  have hcomm := exec_setMac hi s s.mphase s.minner s.keyblock h
  rw [setMac_self, h] at hcomm
  have hkeep : t = t.setMac s.mphase s.minner s.keyblock := Host.Outcome.next.inj hcomm
  rw [hkeep]
  exact ⟨rfl, rfl, rfl⟩

end

/-- Settles O35: the commutation with a change of the MAC context, and the frame it gives. -/
theorem onlyMacStreamingTouchesMctx : Obligations.OnlyMacStreamingTouchesMctx := by
  intro i s t ph c kb hi h
  obtain ⟨hphase, hinner, hkb⟩ := exec_keeps_mac hi s h
  exact ⟨hphase, hinner, hkb, exec_setMac hi s ph c kb h⟩

/-! ### Contexts that are not READY -/

/-- With DPHASE not READY, a command with any other DCTX overwrites it (DINIT) or does the same beside it. -/
theorem exec_unready_digest {i : Instr} {s t : State} (c : Ctx) (hs : s.dphase ≠ .ready)
    (h : exec i s = .next t) :
    (t.dphase = .ready → exec i { s with dctx := c } = .next t) ∧
      (t.dphase ≠ .ready → exec i { s with dctx := c } = .next { t with dctx := c }) := by
  by_cases hi : i ∈ [Instr.dinit, .dupdate, .dfinal]
  · obtain rfl | hi := List.mem_cons.1 hi
    · cases (exec_dinit s).symm.trans h
      exact ⟨fun _ => exec_dinit _, fun hne => absurd rfl hne⟩
    · cases (exec_digest_not_ready hi hs).symm.trans h
      exact ⟨fun hready => absurd hready hs, fun _ => exec_digest_not_ready hi hs⟩
  · obtain ⟨hphase, -⟩ := exec_keeps_digest hi s h
    refine ⟨fun hready => absurd (hphase ▸ hready) hs, fun _ => ?_⟩
    rw [← setDigest_of_dphase hphase c]
    exact exec_setDigest hi s s.dphase c h

/-- With MPHASE not READY, a command with any other MCTX overwrites it (MINIT) or does the same beside it. -/
theorem exec_unready_mac {i : Instr} {s t : State} (c : Ctx) (kb : Vector Byte 64)
    (hs : s.mphase ≠ .ready) (h : exec i s = .next t) :
    (t.mphase = .ready → exec i { s with minner := c, keyblock := kb } = .next t) ∧
      (t.mphase ≠ .ready → exec i { s with minner := c, keyblock := kb } =
        .next { t with minner := c, keyblock := kb }) := by
  by_cases hi : i ∈ [Instr.minit, .mupdate, .mfinal]
  · obtain rfl | hi := List.mem_cons.1 hi
    · obtain ⟨e, hfail, rfl⟩ | ⟨hpass, rfl⟩ := exec_next_iff.1 h
      · exact ⟨fun hready => absurd hready hs, fun _ => exec_of_failing hfail⟩
      · exact ⟨fun _ => exec_of_passing hpass, fun hne => absurd rfl hne⟩
    · cases (exec_mac_not_ready hi hs).symm.trans h
      exact ⟨fun hready => absurd hready hs, fun _ => exec_mac_not_ready hi hs⟩
  · obtain ⟨hphase, -⟩ := exec_keeps_mac hi s h
    refine ⟨fun hready => absurd (hphase ▸ hready) hs, fun _ => ?_⟩
    have hbeside : t.setMac s.mphase c kb = { t with minner := c, keyblock := kb } := by
      rw [← hphase]
      rfl
    rw [← hbeside]
    exact exec_setMac hi s s.mphase c kb h

/-- Settles O40: outside READY the streaming commands fail their first check or overwrite the context, and the
other commands do not reach it. -/
theorem unreadyContextsAreNotRead : Obligations.UnreadyContextsAreNotRead :=
  fun _ _ _ c kb h =>
    ⟨fun hs => exec_unready_digest c hs h, fun hs => exec_unready_mac c kb hs h⟩

/-! ### REG_BASE and HOST_BUS_ORDER -/

/-- Other values of the two parameters that no rule reads (00_scope.md rule R6). -/
def platformParams (p : Params) (base : Nat) (order : ByteOrder) : Params :=
  { p with regBase := base, hostBusOrder := order }

/-- The machine on another platform. -/
def State.withPlatform (s : State) (base : Nat) (order : ByteOrder) : State :=
  { s with params := platformParams s.params base order }

section
variable (p : Params) (base : Nat) (order : ByteOrder)

/-- The block loop reads KTAB alone. -/
@[simp] theorem absorbBlocks_platformParams (n : Nat) (c : Ctx) (data : Bytes) :
    absorbBlocks (platformParams p base order) n c data = absorbBlocks p n c data := by
  induction n generalizing c data with
  | zero => rfl
  | succ n ih => exact ih _ _

@[simp] theorem absorb_platformParams (c : Ctx) (data : Bytes) :
    absorb (platformParams p base order) c data = absorb p c data := by
  simp only [absorb, absorbBlocks_platformParams]
  rfl

@[simp] theorem ctxInit_platformParams : ctxInit (platformParams p base order) = ctxInit p := rfl

@[simp] theorem finish_platformParams (c : Ctx) :
    finish (platformParams p base order) c = finish p c := rfl

@[simp] theorem hashFn_platformParams (m : Bytes) :
    hashFn (platformParams p base order) m = hashFn p m := by simp [hashFn]

@[simp] theorem keyBlock_platformParams (key : Bytes) :
    keyBlock (platformParams p base order) key = keyBlock p key := by simp [keyBlock, k0]

@[simp] theorem macInner_platformParams (kb : Vector Byte 64) :
    macInner (platformParams p base order) kb = macInner p kb := by simp [macInner]

@[simp] theorem macFinish_platformParams (c : Ctx) (kb : Vector Byte 64) :
    macFinish (platformParams p base order) c kb = macFinish p c kb := by simp [macFinish]

@[simp] theorem macOneShot_platformParams (data key : Bytes) :
    macOneShot (platformParams p base order) data key = macOneShot p data key := by
  simp [macOneShot]

@[simp] theorem kdfFn_platformParams (secret : Bytes) (n : Nat) :
    kdfFn (platformParams p base order) secret n = kdfFn p secret n := by
  simp [kdfFn, kdfBlocks, kdfBlock]

end

section
variable (s : State) (base : Nat) (order : ByteOrder)

@[simp] theorem withPlatform_params :
    (s.withPlatform base order).params = platformParams s.params base order := rfl

/-- No check phase reads the two parameters. -/
@[simp] theorem checksOf_withPlatform (i : Instr) :
    checksOf i (s.withPlatform base order) = checksOf i s := by
  cases i <;> rfl

/-- No effect phase reads the two parameters: each of its functions is given IV and KTAB alone. -/
theorem effectOf_withPlatform (i : Instr) :
    effectOf i (s.withPlatform base order) = (effectOf i s).withPlatform base order := by
  cases i <;> simp only [effectOf, withPlatform_params, absorb_platformParams, ctxInit_platformParams,
    finish_platformParams, hashFn_platformParams, keyBlock_platformParams, macInner_platformParams,
    macFinish_platformParams, macOneShot_platformParams, kdfFn_platformParams] <;> rfl

variable {s} {t : State}

theorem exec_withPlatform {i : Instr} (h : exec i s = .next t) :
    exec i (s.withPlatform base order) = .next (t.withPlatform base order) := by
  obtain ⟨e, hfail, rfl⟩ | ⟨hpass, rfl⟩ := exec_next_iff.1 h
  · rw [← checksOf_withPlatform s base order] at hfail
    exact exec_of_failing hfail
  · rw [← checksOf_withPlatform s base order] at hpass
    rw [exec_of_passing hpass, effectOf_withPlatform]
    rfl

theorem execute_withPlatform {w : Word} (h : execute w s = .next t) :
    execute w (s.withPlatform base order) = .next (t.withPlatform base order) := by
  obtain ⟨e, hd, ht⟩ | ⟨i, hd, ht⟩ := execute_cases h
  · cases ht
    exact execute_of_illegal hd _
  · rw [execute, hd]
    exact exec_withPlatform base order ht.symm

theorem setReg_withPlatform (off : Nat) (v : Word) :
    setReg (s.withPlatform base order) off v = (setReg s off v).withPlatform base order := by
  unfold setReg; split <;> rfl

theorem readReg_withPlatform (off : Nat) :
    readReg (s.withPlatform base order) off = readReg s off := by
  unfold readReg; split <;> rfl

theorem writeReg_withPlatform {off : Nat} {v : Word} (h : writeReg s off v = .next t) :
    writeReg (s.withPlatform base order) off v = .next (t.withPlatform base order) := by
  unfold writeReg at h ⊢
  split_ifs at h ⊢
  · exact execute_withPlatform base order h
  · cases h
    rw [setReg_withPlatform]

/-- No host step reads the two parameters. -/
theorem hostStep_withPlatform {h : HostStep} (ht : hostStep h s = .next t) :
    hostStep h (s.withPlatform base order) = .next (t.withPlatform base order) := by
  cases h with
  | readReg off width =>
    simp only [hostStep] at ht ⊢
    split_ifs at ht ⊢
    cases ht
    rw [readReg_withPlatform]
    rfl
  | writeReg off width v =>
    simp only [hostStep] at ht ⊢
    split_ifs at ht ⊢
    exact writeReg_withPlatform base order ht
  | readMem a =>
    simp only [hostStep] at ht
    split_ifs at ht with ha
    cases ht
    exact if_pos ha
  | writeMem a b =>
    simp only [hostStep] at ht
    split_ifs at ht with ha
    cases ht
    exact if_pos ha
  | reset =>
    cases ht
    rfl

end

/-- Settles O37: a step is idle, or a host step taken off the stream, and neither reads the two parameters. -/
theorem platformParametersHaveNoEffect : Obligations.PlatformParametersHaveNoEffect := by
  intro s t base order hstep
  obtain ⟨hidle, rfl⟩ | ⟨h, rest, hhost, ht⟩ := step_next_cases hstep
  · exact step_idle hidle
  · exact (step_host (s := s.withPlatform base order) hhost).trans
      (hostStep_withPlatform base order ht)

end Sys2Proof.Machine
end

section
/-! Issue and host accesses (30_encoding.md rules R71, R81, 44_host_access.md rules R200 to R202): the decoder
in both directions, a CMD write of a command's word, and runs of register writes. -/

namespace Sys2Proof.Machine

/-! ### Words and commands -/

theorem instr_wellFormed (i : Instr) : i.wellFormed = true := by
  cases i <;> rfl

/-- Settles O1: the word of each command decodes to it, and the decoder inverted is that word. -/
theorem decodeEncodeAgree : Obligations.DecodeEncodeAgree :=
  ⟨fun i _ => decode_encode i,
    fun _ i h => ⟨instr_wellFormed i, (eq_encode_of_decode h).symm⟩⟩

/-- A word with a bit of RSV set is ILLEGAL for that reason, whatever its OP (rule R78). -/
theorem decode_of_rsv {w : Word} (h : rsvField w ≠ 0) : decode w = .error .reservedBitsSet :=
  if_pos h

/-- A word with RSV zero whose OP is not of the nine is ILLEGAL for that reason (rule R78). -/
theorem decode_of_unknown {w : Word} (hrsv : rsvField w = 0) (hop : opMap (opField w) = none) :
    decode w = .error (.unknownOpcode (opField w)) := by
  rw [decode, if_neg (not_not.2 hrsv), hop]

/-- Settles O2: five words of commands, two with a reserved bit set, and two of no operation code. -/
theorem wordsOfEachFamilyDecode : Obligations.WordsOfEachFamilyDecode :=
  ⟨decode_encode .dinit, decode_encode .digest, decode_encode .minit, decode_encode .mac,
    decode_encode .kdf, decode_of_rsv (by decide), decode_of_rsv (by decide),
    decode_of_unknown (by decide) (by decide), decode_of_unknown (by decide) (by decide)⟩

/-- Settles O4: the write is admitted, and the word it executes is the command's. -/
theorem stepRunsTheDecodedCommand : Obligations.StepRunsTheDecodedCommand := by
  intro w i s rest hw hhost
  rw [step_cmdWrite hhost, execute, hw]
  rfl

/-- Settles O6: the law of the idle step. -/
theorem idleStepChangesNothing : Obligations.IdleStepChangesNothing := fun _ => step_idle

/-! ### Runs of register writes -/

section
variable {s : State} {off : Nat} {v : Word} {rest : List HostStep}

/-- The offsets of the argument registers are admitted, and none is CMD's (rule R22). -/
theorem argument_admitted (hoff : off ∈ [0x08, 0x0C, 0x10, 0x14, 0x18, 0x1C]) :
    admittedAccess off 32 = true ∧ off ≠ 0x00 := by
  simp only [List.mem_cons, List.not_mem_nil, or_false] at hoff
  obtain rfl | rfl | rfl | rfl | rfl | rfl := hoff <;> decide

/-- A step at the write of an argument register sets it, with the write off the stream (rule R201). -/
theorem step_wr_argument (hoff : off ∈ [0x08, 0x0C, 0x10, 0x14, 0x18, 0x1C])
    (hs : s.host = wr off v :: rest) : step s = .next (setReg (s.withHost rest) off v) := by
  obtain ⟨hadmitted, hne⟩ := argument_admitted hoff
  rw [step_writeReg_of_admitted hs hadmitted, writeReg, if_neg hne]

/-- A run that begins with the write of an argument register is the rest of the run with it set. -/
theorem runSteps_wr_argument (n : Nat) (hoff : off ∈ [0x08, 0x0C, 0x10, 0x14, 0x18, 0x1C])
    (hs : s.host = wr off v :: rest) :
    runSteps (n + 1) s = runSteps n (setReg (s.withHost rest) off v) :=
  runSteps_succ (step_wr_argument hoff hs)

/-- A run of one step at the CMD write of a command's word runs the command (rule R202). -/
theorem runSteps_one_cmd (i : Instr) (hs : s.host = wr 0x00 (encode i) :: rest) :
    runSteps 1 s = exec i (s.withHost rest).countCommand := by
  rw [runSteps_one, step_cmdWrite hs, execute_encode]

/-- The register just written reads back as written. -/
theorem readReg_setReg (s : State) (v : Word)
    (hoff : off ∈ [0x08, 0x0C, 0x10, 0x14, 0x18, 0x1C]) : readReg (setReg s off v) off = v := by
  simp only [List.mem_cons, List.not_mem_nil, or_false] at hoff
  obtain rfl | rfl | rfl | rfl | rfl | rfl := hoff <;> rfl

theorem setReg_withHost (s : State) (steps : List HostStep) :
    (setReg s off v).withHost steps = setReg (s.withHost steps) off v := by
  unfold setReg; split <;> rfl

end

/-- Settles O9: the first step sets the register, and the second delivers it. -/
theorem argumentRegistersReadBack : Obligations.ArgumentRegistersReadBack := by
  intro s off v rest hoff hhost
  have hread : (setReg (s.withHost (.readReg off 32 :: rest)) off v).host = .readReg off 32 :: rest :=
    setReg_host _ off v
  have hsecond := step_readReg_of_admitted hread (argument_admitted hoff).1
  rw [setReg_withHost, readReg_setReg _ v hoff] at hsecond
  have hrun := (runSteps_wr_argument 1 hoff hhost).trans ((runSteps_one _).trans hsecond)
  exact ⟨_, hrun, by simp, by simp⟩

/-- The state after the writes of a list of argument registers, the first one first. `runSteps_operands` ties it
to a run. -/
def setRegs (s : State) (operands : List (Nat × Word)) : State :=
  operands.foldl (fun s op => setReg s op.1 op.2) s

/-- A run over the writes of operands and the CMD write of a command's word is the command with those
registers set (rule R81). -/
theorem runSteps_operands (i : Instr) {rest : List HostStep} (operands : List (Nat × Word)) {s : State}
    (hoff : ∀ op ∈ operands, op.1 ∈ [0x08, 0x0C, 0x10, 0x14, 0x18, 0x1C])
    (hs : s.host = operands.map (fun op => wr op.1 op.2) ++ wr 0x00 (encode i) :: rest) :
    runSteps (operands.length + 1) s = exec i (setRegs (s.withHost rest) operands).countCommand := by
  induction operands generalizing s with
  | nil => exact runSteps_one_cmd i hs
  | cons op operands ih =>
    obtain ⟨hop, hops⟩ := List.forall_mem_cons.1 hoff
    rw [List.length_cons, runSteps_wr_argument _ hop hs, ih hops (setReg_host _ _ _), setReg_withHost]
    rfl

/-- Settles O15: the steps of each form are the writes of its operands and the CMD write of its word. -/
theorem operandFormsExpand : Obligations.OperandFormsExpand := by
  intro s rest src len key klen dst outlen run s'
  refine ⟨?dinit, ?dupdate, ?dfinal, ?digest, ?minit, ?mupdate, ?mfinal, ?mac, ?kdf⟩
  case dinit => exact runSteps_operands .dinit (rest := rest) [] (by simp) rfl
  case dupdate =>
    exact runSteps_operands .dupdate (rest := rest) [(0x08, src), (0x0C, len)] (by simp) rfl
  case dfinal => exact runSteps_operands .dfinal (rest := rest) [(0x18, dst)] (by simp) rfl
  case digest =>
    exact runSteps_operands .digest (rest := rest) [(0x08, src), (0x0C, len), (0x18, dst)] (by simp) rfl
  case minit =>
    exact runSteps_operands .minit (rest := rest) [(0x10, key), (0x14, klen)] (by simp) rfl
  case mupdate =>
    exact runSteps_operands .mupdate (rest := rest) [(0x08, src), (0x0C, len)] (by simp) rfl
  case mfinal => exact runSteps_operands .mfinal (rest := rest) [(0x18, dst)] (by simp) rfl
  case mac =>
    exact runSteps_operands .mac (rest := rest)
      [(0x08, src), (0x0C, len), (0x10, key), (0x14, klen), (0x18, dst)] (by simp) rfl
  case kdf =>
    exact runSteps_operands .kdf (rest := rest)
      [(0x08, src), (0x0C, len), (0x18, dst), (0x1C, outlen)] (by simp) rfl

end Sys2Proof.Machine
end

section
/-! STATUS and reset (10_state.md rules R23, R42, 70_reset_and_hazards.md section 1): STATUS as a number of which
each field is a digit, what a register read tells of a context, and the state after a reset. -/

namespace Sys2Proof.Machine

/-! ### STATUS as a number -/

/-- A word put above the bits of a smaller one adds to it. -/
theorem or_shiftLeft_toNat {x y : Word} {k : Nat} (hx : x.toNat < 2 ^ k)
    (hy : 2 ^ k * y.toNat < 2 ^ 32) : (x ||| y <<< k).toNat = 2 ^ k * y.toNat + x.toNat := by
  rw [BitVec.toNat_or, BitVec.toNat_shiftLeft, Nat.shiftLeft_eq, Nat.mul_comm y.toNat,
    Nat.mod_eq_of_lt hy, Nat.or_comm, Nat.two_pow_add_eq_or_of_lt hx]

/-- Phase encoding 3 is never produced (rule R35). -/
theorem phase_code_le (ph : Phase) : ph.code.toNat ≤ 2 := by
  cases ph <;> decide

theorem flagBit_toNat (b : Bool) : (flagBit b).toNat = b.toNat := by
  cases b <;> rfl

/-- ERR codes 6 to 15 are never produced (60_exceptions.md rule R220). -/
theorem errValue_le (e : Option ErrorCode) : (errValue e).toNat ≤ 5 := by
  cases e with
  | none => decide
  | some e => cases e <;> decide

theorem pending_toNat {n : Nat} (h : n < 64) : (BitVec.ofNat 32 n).toNat = n :=
  Nat.mod_eq_of_lt (by omega)

/-- STATUS is the sum of its fields at their bit positions (rule R23). -/
theorem status_toNat {s : State} (hd : s.dctx.pending < 64) (hm : s.minner.pending < 64) :
    s.status.toNat =
      2 ^ 24 * s.minner.pending + (2 ^ 16 * s.dctx.pending + (2 ^ 8 * (errValue s.err).toNat +
        (2 ^ 7 * s.errSeen.toNat + (2 ^ 2 * s.mphase.code.toNat + s.dphase.code.toNat)))) := by
  have hdp := phase_code_le s.dphase
  have hmp := phase_code_le s.mphase
  have herr := errValue_le s.err
  have hseen := Bool.toNat_le s.errSeen
  have h2 := or_shiftLeft_toNat (x := s.dphase.code) (y := s.mphase.code) (k := 2)
    (by omega) (by omega)
  have h7 := or_shiftLeft_toNat (y := flagBit s.errSeen) (k := 7) (by rw [h2]; omega)
    (by rw [flagBit_toNat]; omega)
  have h8 := or_shiftLeft_toNat (y := errValue s.err) (k := 8)
    (by rw [h7, h2, flagBit_toNat]; omega) (by omega)
  have h16 := or_shiftLeft_toNat (y := BitVec.ofNat 32 s.dctx.pending) (k := 16)
    (by rw [h8, h7, h2, flagBit_toNat]; omega) (by rw [pending_toNat hd]; omega)
  have h24 := or_shiftLeft_toNat (y := BitVec.ofNat 32 s.minner.pending) (k := 24)
    (by rw [h16, h8, h7, h2, flagBit_toNat, pending_toNat hd]; omega)
    (by rw [pending_toNat hm]; omega)
  rw [State.status, h24, h16, h8, h7, h2, flagBit_toNat, pending_toNat hd, pending_toNat hm]

/-- A field of a word, read as a digit of its number. -/
theorem extractLsb'_toNat_eq (w : Word) (start len : Nat) :
    (w.extractLsb' start len).toNat = w.toNat / 2 ^ start % 2 ^ len := by
  rw [BitVec.extractLsb'_toNat, Nat.shiftRight_eq_div_pow]

/-- A field of a word whose digit is 0. -/
theorem extractLsb'_eq_zero {w : Word} {start len : Nat}
    (h : w.toNat / 2 ^ start % 2 ^ len = 0) : w.extractLsb' start len = 0 :=
  BitVec.eq_of_toNat_eq (by rw [extractLsb'_toNat_eq, h]; rfl)

/-- Settles O13: each field is a digit of STATUS between the bounds of its neighbours, and STATUS is no argument
register, so a write to it is ignored. -/
theorem statusFields : Obligations.StatusFields := by
  refine ⟨fun s hd hm => ?_, fun s v rest hs => ?_⟩
  · have hsum := status_toNat hd hm
    have hdp := phase_code_le s.dphase
    have hmp := phase_code_le s.mphase
    have herr := errValue_le s.err
    have hseen := Bool.toNat_le s.errSeen
    refine ⟨?dphase, ?mphase, extractLsb'_eq_zero (by omega), ?errSeen, ?err,
      extractLsb'_eq_zero (by omega), ?dpending, extractLsb'_eq_zero (by omega), ?mpending,
      extractLsb'_eq_zero (by omega)⟩
    case dphase =>
      have hfield : (s.status.extractLsb' 0 2).toNat = s.dphase.code.toNat := by
        rw [extractLsb'_toNat_eq]
        omega
      rw [hfield]
      cases s.dphase <;> rfl
    case mphase =>
      have hfield : (s.status.extractLsb' 2 2).toNat = s.mphase.code.toNat := by
        rw [extractLsb'_toNat_eq]
        omega
      rw [hfield]
      cases s.mphase <;> rfl
    case errSeen =>
      have hdigit : s.status.toNat / 2 ^ 7 % 2 = s.errSeen.toNat := by omega
      rw [BitVec.getLsbD, Nat.testBit_eq_decide_div_mod_eq, hdigit]
      cases s.errSeen <;> rfl
    case err =>
      have hfield : (s.status.extractLsb' 8 4).toNat = (errValue s.err).toNat := by
        rw [extractLsb'_toNat_eq]
        omega
      rw [hfield]
      cases s.err with
      | none => rfl
      | some e => cases e <;> rfl
    case dpending =>
      rw [extractLsb'_toNat_eq]
      omega
    case mpending =>
      rw [extractLsb'_toNat_eq]
      omega
  · rw [step_writeReg_of_admitted hs (by decide), writeReg, if_neg (by decide),
      setReg_of_not_argument (by decide)]
    rfl

/-! ### What a read tells of a context -/

/-- STATUS is composed of the flags, the phases and the two PENDING alone. -/
theorem status_congr {s t : State} (hdp : t.dphase = s.dphase) (hmp : t.mphase = s.mphase)
    (hseen : t.errSeen = s.errSeen) (herr : t.err = s.err)
    (hd : t.dctx.pending = s.dctx.pending) (hm : t.minner.pending = s.minner.pending) :
    t.status = s.status := by
  rw [State.status, hdp, hmp, hseen, herr, hd, hm, State.status]

/-- Settles O14: the value of each offset is STATUS, an argument register or 0. -/
theorem readsDoNotRevealTheContexts : Obligations.ReadsDoNotRevealTheContexts := by
  intro s c c' kb off hd hm
  have hstatus : State.status { s with dctx := c, minner := c', keyblock := kb } = s.status :=
    status_congr rfl rfl rfl rfl hd hm
  rw [readReg_eq, readReg_eq, hstatus]

/-! ### Reset -/

theorem step_reset {s : State} {rest : List HostStep} (hs : s.host = .reset :: rest) :
    step s = .next (s.withHost rest).engineReset :=
  step_host hs

/-- With both contexts as reset leaves them STATUS holds the flags alone (rule R43). -/
theorem status_of_uninit {s : State} (seen : Bool) (err : Option ErrorCode)
    (hdp : s.dphase = .uninit) (hmp : s.mphase = .uninit) (hd : s.dctx = ctxZero)
    (hm : s.minner = ctxZero) (hseen : s.errSeen = seen) (herr : s.err = err) :
    s.status = flagBit seen <<< 7 ||| errValue err <<< 8 := by
  rw [State.status, hdp, hmp, hd, hm, hseen, herr]
  simp [Phase.code, ctxZero_pending]

/-- Settles O12: the reset step's state in its fields; that nothing else clears ERRSEEN is the flags' rule. -/
theorem resetEventValues : Obligations.ResetEventValues := by
  obtain ⟨-, -, honlyReset⟩ := flagsRule
  refine ⟨fun s rest hs => ⟨_, step_reset hs, ?registers, ?flags, ?contexts, ?status, ?rest⟩,
    honlyReset⟩
  case registers => exact ⟨rfl, rfl, rfl, rfl, rfl, rfl⟩
  case flags => exact ⟨rfl, rfl, rfl, rfl⟩
  case contexts => exact ⟨rfl, rfl, rfl⟩
  case status => exact (status_of_uninit false none rfl rfl rfl rfl rfl rfl).trans (by decide)
  case rest => exact ⟨rfl, rfl, rfl, rfl, rfl⟩

/-! ### The first command -/

/-- DIGEST at a launch: every operand is 0, so the source is empty and the output goes to address 0. -/
theorem exec_digest_launch {p : Params} (m : Memory) (steps : List HostStep) (hsize : 32 ≤ p.memSize) :
    exec .digest (State.launch p m steps).countCommand =
      .next ((State.launch p m steps).countCommand.writeMem 0 (hashFn p [])).success := by
  have hpass : firstFailing (checksOf .digest (State.launch p m steps).countCommand) = none := by
    rw [firstFailing_digest, if_pos (by simpa [State.launch] using hsize)]
  exact exec_of_passing hpass

/-- Settles O60: DIGEST succeeds on an empty source, and DFINAL finds DCTX not READY. -/
theorem firstCommandAfterReset : Obligations.FirstCommandAfterReset := by
  intro p m rest hsize
  refine ⟨?digest, ?dfinal⟩
  case digest =>
    have hexec := exec_digest_launch m rest hsize
    have hstep : step (State.launch p m (.writeReg 0x00 32 0x00000004 :: rest)) = _ :=
      (step_cmdWrite rfl).trans ((execute_encode .digest _).trans hexec)
    exact ⟨_, hstep, by simp [State.launch],
      (status_of_uninit false none rfl rfl rfl rfl rfl rfl).trans (by decide)⟩
  case dfinal =>
    have hexec : exec .dfinal (State.launch p m rest).countCommand = _ :=
      exec_digest_not_ready (by decide) Phase.noConfusion
    have hstep : step (State.launch p m (.writeReg 0x00 32 0x00000003 :: rest)) = _ :=
      (step_cmdWrite rfl).trans ((execute_encode .dfinal _).trans hexec)
    exact ⟨_, hstep, rfl,
      (status_of_uninit true (some .badState) rfl rfl rfl rfl rfl rfl).trans (by decide)⟩

end Sys2Proof.Machine
end

section
/-! The codec and the word functions (40_datapath.md rules R100 to R103, R108): a big-endian word as four bytes at
a place of a sequence, GG1 bit by bit, and the default round constants. -/

namespace Sys2Proof.Machine

/-! ### A word as four bytes -/

/-- The word of four bytes, the first the most significant (rule R100). -/
def wordOfBytes (a b c d : Byte) : Word :=
  BitVec.ofNat 32 (a.toNat * 2 ^ 24 + b.toNat * 2 ^ 16 + c.toNat * 2 ^ 8 + d.toNat)

theorem wordOfBytes_toNat (a b c d : Byte) :
    (wordOfBytes a b c d).toNat =
      a.toNat * 2 ^ 24 + b.toNat * 2 ^ 16 + c.toNat * 2 ^ 8 + d.toNat := by
  rw [wordOfBytes, BitVec.toNat_ofNat]
  omega

/-- The bytes of a word make up the word (rules R100, R101). -/
theorem wordOfBytes_extract (v : Word) :
    wordOfBytes (v.extractLsb' 24 8) (v.extractLsb' 16 8) (v.extractLsb' 8 8)
      (v.extractLsb' 0 8) = v := by
  apply BitVec.eq_of_toNat_eq
  simp only [wordOfBytes_toNat, extractLsb'_toNat_eq]
  omega

/-- The word of four bytes has those bytes (rules R100, R101). -/
theorem be32_wordOfBytes (a b c d : Byte) : be32 (wordOfBytes a b c d) = [a, b, c, d] := by
  simp only [be32, List.cons.injEq, and_true, ← BitVec.toNat_inj, extractLsb'_toNat_eq,
    wordOfBytes_toNat]
  refine ⟨?_, ?_, ?_, ?_⟩ <;> omega

/-! ### Four bytes inside a sequence -/

/-- Four bytes lie at a place of a sequence that leaves room for them. -/
theorem exists_four_bytes {s : Bytes} {o : Nat} (h : o + 4 ≤ s.length) :
    ∃ a b c d : Byte, s = s.take o ++ a :: b :: c :: d :: s.drop (o + 4) := by
  refine ⟨s[o], s[o + 1], s[o + 2], s[o + 3], ?_⟩
  conv_lhs => rw [← List.take_append_drop o s]
  simp only [List.getElem_cons_drop]

section
variable (pre post : Bytes) (a b c d : Byte)

/-- A read at a place takes the four bytes that stand there. -/
theorem readBE32_append :
    readBE32 (pre ++ a :: b :: c :: d :: post) pre.length = wordOfBytes a b c d := by
  simp [readBE32, wordOfBytes]

/-- A write at a place replaces the four bytes that stand there and no other. -/
theorem writeBE32_append (v : Word) :
    writeBE32 (pre ++ a :: b :: c :: d :: post) pre.length v = pre ++ be32 v ++ post := by
  simp [writeBE32, be32, List.set_append_right]

end

theorem readBE32_be32_append (pre post : Bytes) (v : Word) :
    readBE32 (pre ++ be32 v ++ post) pre.length = v := by
  rw [be32, List.append_assoc]
  exact (readBE32_append pre post _ _ _ _).trans (wordOfBytes_extract v)

/-- Settles O45: a sequence with room for four bytes is what stands before them, the four, and the rest. -/
theorem codecRoundTrip : Obligations.CodecRoundTrip := by
  refine ⟨fun v => by simpa using readBE32_be32_append [] [] v, fun s o v h => ?_⟩
  obtain ⟨a, b, c, d, hs⟩ := exists_four_bytes h
  have hpre : (s.take o).length = o := List.length_take_of_le (by omega)
  have hread := readBE32_append (s.take o) (s.drop (o + 4)) a b c d
  have hwrite := writeBE32_append (s.take o) (s.drop (o + 4)) a b c d v
  have hback := readBE32_be32_append (s.take o) (s.drop (o + 4)) v
  rw [hpre, ← hs] at hread hwrite
  rw [hpre, ← hwrite] at hback
  refine ⟨?_, hback, hwrite⟩
  have hdrop : s.drop o = a :: b :: c :: d :: s.drop (o + 4) := by
    conv_lhs => rw [hs]
    exact List.drop_left' hpre
  rw [hread, be32_wordOfBytes, hdrop]
  rfl

/-! ### GG1 -/

/-- Settles O48: for each bit, by the bit of x. -/
theorem booleanFunctionSelectsBits : Obligations.BooleanFunctionSelectsBits := by
  intro j x y z hj
  rw [gg, if_neg (by omega)]
  ext i hi
  simp only [BitVec.getElem_or, BitVec.getElem_and, BitVec.getElem_xor, BitVec.getElem_not]
  cases x[i] <;> simp

/-! ### The default round constants -/

/-- Settles O47: the table is finite. -/
theorem defaultRoundConstants : Obligations.DefaultRoundConstants := by
  unfold Obligations.DefaultRoundConstants
  decide

end Sys2Proof.Machine
end
